-- ==== Sys2Proof/Word.lean ====
section
/-! DEFINITION. The word type. Bit 0 is the least significant bit (00_scope.md R6).

Every register value, memory word, instruction word and the pc is a vector of 32 bits; its two integer
readings are `BitVec.toNat` (unsigned) and `BitVec.toInt` (signed, two's complement) (00_scope.md R7). -/

namespace Sys2Proof

/-- A 32-bit vector (R7). -/
abbrev Word := BitVec 32

/-- A 5-bit register-index field (R51); it names one of the 32 general registers (R10). -/
abbrev RegIdx := BitVec 5

/-- A 6-bit opcode or funct code (R2). -/
abbrev Code := BitVec 6

end Sys2Proof
end

