-- ==== Sys2Proof/Config.lean ====
section
/-! DEFINITION. What an implementation fixes: the shape of the record of selector numerals (00_scope.md R5)
and the size of the memory array (R3). The record's default values stand in Decode.lean. The spec leaves no
value open after a step (93_implementation_defined.md Part 1), so there is no free value here. -/

namespace Sys2Proof

/-- The 18 named selector numerals, "one configuration record" (00_scope.md R5). -/
structure Numerals where
  functAdd : Code
  functSub : Code
  functAnd : Code
  functOr : Code
  functSlt : Code
  functSll : Code
  functSrl : Code
  functHalt : Code
  opAddi : Code
  opAndi : Code
  opOri : Code
  opSlti : Code
  opLui : Code
  opBeq : Code
  opBne : Code
  opLw : Code
  opSw : Code
  opJ : Code
  deriving DecidableEq, Repr

/-- The eight funct selectors of a numeral record (R53). -/
def Numerals.functs (n : Numerals) : List Code :=
  [n.functAdd, n.functSub, n.functAnd, n.functOr, n.functSlt, n.functSll, n.functSrl, n.functHalt]

/-- The nine I-format opcodes of a numeral record (R60). -/
def Numerals.iOpcodes (n : Numerals) : List Code :=
  [n.opAddi, n.opAndi, n.opOri, n.opSlti, n.opLui, n.opBeq, n.opBne, n.opLw, n.opSw]

/-- The default of `MEM_WORDS` (00_scope.md R3). -/
def Config.defaultMemWords : Nat := 1024

/-- The least admitted `MEM_WORDS` (R3). -/
def Config.minMemWords : Nat := 1

/-- The greatest admitted `MEM_WORDS` (R3). -/
def Config.maxMemWords : Nat := 2 ^ 28

end Sys2Proof
end

