-- ==== Sys2Proof/Syntax.lean ====
section
/-! DEFINITION. The instruction set: 18 instructions, one constructor per row of spec/opcode_table.json
(00_scope.md R1). A constructor carries every field of its format in the order of the word (30_encoding.md
R51), the fields it ignores included (R62), so that no bit of an instruction word is lost. -/

namespace Sys2Proof

/-- One of the 18 instructions, with the fields of its word. -/
inductive Instr where
  /-- ADD rd,rs,rt (R91); shamt ignored. -/
  | add (rs rt rd shamt : BitVec 5)
  /-- SUB rd,rs,rt (R92); shamt ignored. -/
  | sub (rs rt rd shamt : BitVec 5)
  /-- AND rd,rs,rt (R93); shamt ignored. -/
  | and (rs rt rd shamt : BitVec 5)
  /-- OR rd,rs,rt (R94); shamt ignored. -/
  | or (rs rt rd shamt : BitVec 5)
  /-- SLT rd,rs,rt (R95); shamt ignored. -/
  | slt (rs rt rd shamt : BitVec 5)
  /-- SLL rd,rt,#shamt (R96); rs ignored. -/
  | sll (rs rt rd shamt : BitVec 5)
  /-- SRL rd,rt,#shamt (R97); rs ignored. -/
  | srl (rs rt rd shamt : BitVec 5)
  /-- HALT (R100); all four fields ignored. -/
  | halt (rs rt rd shamt : BitVec 5)
  /-- ADDI rt,rs,#imm (R106). -/
  | addi (rs rt : RegIdx) (imm16 : BitVec 16)
  /-- ANDI rt,rs,#imm (R107). -/
  | andi (rs rt : RegIdx) (imm16 : BitVec 16)
  /-- ORI rt,rs,#imm (R108). -/
  | ori (rs rt : RegIdx) (imm16 : BitVec 16)
  /-- SLTI rt,rs,#imm (R109). -/
  | slti (rs rt : RegIdx) (imm16 : BitVec 16)
  /-- LUI rt,#imm (R110); rs ignored. -/
  | lui (rs rt : RegIdx) (imm16 : BitVec 16)
  /-- BEQ rs,rt,#imm (R113). -/
  | beq (rs rt : RegIdx) (imm16 : BitVec 16)
  /-- BNE rs,rt,#imm (R114). -/
  | bne (rs rt : RegIdx) (imm16 : BitVec 16)
  /-- LW rt,#imm(rs) (R117). -/
  | lw (rs rt : RegIdx) (imm16 : BitVec 16)
  /-- SW rt,#imm(rs) (R118). -/
  | sw (rs rt : RegIdx) (imm16 : BitVec 16)
  /-- J #address (R121). -/
  | j (address : BitVec 26)
  deriving DecidableEq, Repr

end Sys2Proof
end

