-- ==== Sys2Proof/WellFormed.lean ====
section
/-! DEFINITION. The checks the spec puts on what the model is given: the numeral record (00_scope.md R5), the
memory size (R3) and the image (R4). An `Instr` needs no check: each operand's type has exactly the width of
its field (30_encoding.md R51), every value of every field is accepted (R62), so every term is an instruction. -/

namespace Sys2Proof

/-- "the eight `FUNCT_*` are pairwise distinct 6-bit values" (00_scope.md R5). -/
def Numerals.functsDistinct (n : Numerals) : Bool := decide n.functs.Nodup

/-- "the nine I-format `OP_*` are pairwise distinct 6-bit values" (R5). -/
def Numerals.iOpcodesDistinct (n : Numerals) : Bool := decide n.iOpcodes.Nodup

/-- "none of which is 0, 2 or 3" (R5). -/
def Numerals.iOpcodesAreIFormat (n : Numerals) : Bool :=
  n.iOpcodes.all fun o => o ≠ 0 && o ≠ 2 && o ≠ 3

/-- "`OP_J` is 2 or 3" (R5). -/
def Numerals.opJIsJFormat (n : Numerals) : Bool := n.opJ == 2 || n.opJ == 3

/-- The constraints every assignment of numerals must meet (R5). -/
def Numerals.wellFormed (n : Numerals) : Bool :=
  n.functsDistinct && n.iOpcodesDistinct && n.iOpcodesAreIFormat && n.opJIsJFormat

/-- `1 <= MEM_WORDS <= 2^28` (R3). -/
def memWordsWellFormed (k : Nat) : Bool :=
  decide (Config.minMemWords ≤ k) && decide (k ≤ Config.maxMemWords)

/-- An image holds exactly `MEM_WORDS` words for an admitted `MEM_WORDS` (R4). -/
def imageWellFormed (image : List Word) : Bool := memWordsWellFormed image.length

end Sys2Proof
end

