-- ==== Sys2Proof/Decode.lean ====
section
/-! DEFINITION. The Decoder and the dispatch (40_decoder_and_cycle.md R70 to R72, R76), total on every word and
rejecting by name; after them the encoder (30_encoding.md R66) and the opcode table as the spec's rows.

Decoding is in two layers, as the spec has it: `decode` is the stateless Decoder, which never fails, and
`dispatch` is the engine's selection, which rejects what is not one of the 18 instructions (R61). -/

namespace Sys2Proof

/-- The instruction format, a function of the opcode alone (R52). -/
inductive Format where
  | r
  | i
  | j
  deriving DecidableEq, Repr

/-- A decoded instruction: "a tagged variant of exactly three shapes" (R70). -/
inductive Decoded where
  | r (opcode : Code) (rs rt rd shamt : BitVec 5) (funct : Code)
  | i (opcode : Code) (rs rt : RegIdx) (immediate : Word)
  | j (opcode : Code) (address : BitVec 26)
  deriving DecidableEq, Repr

/-- The code that no rule of its format recognises: what UnsupportedOperation reports (60_exceptions.md R131). -/
structure Unsupported where
  fmt : Format
  code : Code
  deriving DecidableEq, Repr

/-! ## Numerals -/

/-- The default numerals (R5). ADD and SUB are the source's; the other fifteen but one are MIPS32's (G1, G2:
PRESUMED, log entry 1); `functHalt` is the spec's own choice (D16: DESIGN CHOICE, log entry 2). -/
def Config.numerals : Numerals where
  functAdd := 0x20
  functSub := 0x22
  functAnd := 0x24
  functOr := 0x25
  functSlt := 0x2A
  functSll := 0x00
  functSrl := 0x02
  functHalt := 0x3F
  opAddi := 0x08
  opAndi := 0x0C
  opOri := 0x0D
  opSlti := 0x0A
  opLui := 0x0F
  opBeq := 0x04
  opBne := 0x05
  opLw := 0x23
  opSw := 0x2B
  opJ := 0x02

/-! ## The fields of a word (R51) -/

/-- `w[31:26]`. -/
def opcodeOf (w : Word) : Code := w.extractLsb' 26 6
/-- `w[25:21]`. -/
def rsOf (w : Word) : RegIdx := w.extractLsb' 21 5
/-- `w[20:16]`. -/
def rtOf (w : Word) : RegIdx := w.extractLsb' 16 5
/-- `w[15:11]`. -/
def rdOf (w : Word) : RegIdx := w.extractLsb' 11 5
/-- `w[10:6]`. -/
def shamtOf (w : Word) : BitVec 5 := w.extractLsb' 6 5
/-- `w[5:0]`. -/
def functOf (w : Word) : Code := w.extractLsb' 0 6
/-- `w[15:0]`. -/
def imm16Of (w : Word) : BitVec 16 := w.extractLsb' 0 16
/-- `w[25:0]`. -/
def addressOf (w : Word) : BitVec 26 := w.extractLsb' 0 26

/-- The widening of the 16-bit immediate to 32 bits, replicating bit 15 (R54). -/
def extendImmediate (imm16 : BitVec 16) : Word := imm16.signExtend 32

/-! ## The Decoder -/

/-- The format an opcode selects (R52). -/
def formatOf (opcode : Code) : Format :=
  if opcode = 0 then .r else if opcode = 2 ∨ opcode = 3 then .j else .i

/-- The Decoder (R71): pure and total. -/
def decode (w : Word) : Decoded :=
  match formatOf (opcodeOf w) with
  | .r => .r (opcodeOf w) (rsOf w) (rtOf w) (rdOf w) (shamtOf w) (functOf w)
  | .j => .j (opcodeOf w) (addressOf w)
  | .i => .i (opcodeOf w) (rsOf w) (rtOf w) (extendImmediate (imm16Of w))

/-- The low 16 bits of a decoded immediate: the raw field again (R72). -/
def rawImmediate (immediate : Word) : BitVec 16 := immediate.extractLsb' 0 16

/-- What the Decoder can answer (R52, R54, R70): the tag agrees with the opcode, and an I variant's immediate is
the extension of a 16-bit field. -/
def Decoded.wellFormed : Decoded → Bool
  | .r opcode _ _ _ _ _ => formatOf opcode == .r
  | .i opcode _ _ immediate =>
    formatOf opcode == .i && immediate == extendImmediate (rawImmediate immediate)
  | .j opcode _ => formatOf opcode == .j

/-! ## Dispatch (R76) -/

/-- Selection among the R-format instructions by `funct` (R53). -/
def dispatchR (n : Numerals) (rs rt rd shamt : BitVec 5) (funct : Code) : Except Unsupported Instr :=
  if funct = n.functAdd then .ok (.add rs rt rd shamt)
  else if funct = n.functSub then .ok (.sub rs rt rd shamt)
  else if funct = n.functAnd then .ok (.and rs rt rd shamt)
  else if funct = n.functOr then .ok (.or rs rt rd shamt)
  else if funct = n.functSlt then .ok (.slt rs rt rd shamt)
  else if funct = n.functSll then .ok (.sll rs rt rd shamt)
  else if funct = n.functSrl then .ok (.srl rs rt rd shamt)
  else if funct = n.functHalt then .ok (.halt rs rt rd shamt)
  else .error ⟨.r, funct⟩

/-- Selection among the I-format instructions by `opcode` (R60). -/
def dispatchI (n : Numerals) (opcode : Code) (rs rt : RegIdx) (imm16 : BitVec 16) :
    Except Unsupported Instr :=
  if opcode = n.opAddi then .ok (.addi rs rt imm16)
  else if opcode = n.opAndi then .ok (.andi rs rt imm16)
  else if opcode = n.opOri then .ok (.ori rs rt imm16)
  else if opcode = n.opSlti then .ok (.slti rs rt imm16)
  else if opcode = n.opLui then .ok (.lui rs rt imm16)
  else if opcode = n.opBeq then .ok (.beq rs rt imm16)
  else if opcode = n.opBne then .ok (.bne rs rt imm16)
  else if opcode = n.opLw then .ok (.lw rs rt imm16)
  else if opcode = n.opSw then .ok (.sw rs rt imm16)
  else .error ⟨.i, opcode⟩

/-- The one J-format instruction; the other member of {2, 3} is unrecognised (R60, R122). -/
def dispatchJ (n : Numerals) (opcode : Code) (address : BitVec 26) : Except Unsupported Instr :=
  if opcode = n.opJ then .ok (.j address) else .error ⟨.j, opcode⟩

/-- Dispatch "is by decoded variant, then by `funct` (R) or `opcode` (I/J)" (R76). -/
def dispatch (n : Numerals) : Decoded → Except Unsupported Instr
  | .r _ rs rt rd shamt funct => dispatchR n rs rt rd shamt funct
  | .i opcode rs rt immediate => dispatchI n opcode rs rt (rawImmediate immediate)
  | .j opcode address => dispatchJ n opcode address

/-- Decode, then dispatch, under any numerals. -/
def decodeWith (n : Numerals) (w : Word) : Except Unsupported Instr := dispatch n (decode w)

/-- Decode, then dispatch, under the default numerals: what a step does with the word it fetched. -/
def decodeInstr (w : Word) : Except Unsupported Instr := decodeWith Config.numerals w

/-- The instruction the decoder reads from the low `nbits` bits of `w`, every bit above them 0. An instruction
has 32 bits (R50), so more than 32 are no instruction (log entry 9). -/
def decodeTableWord (nbits w : Nat) : Option Instr :=
  if nbits ≤ 32 then
    match decodeInstr (BitVec.ofNat 32 (w % 2 ^ nbits)) with
    | .ok i => some i
    | .error _ => none
  else none

/-! ## The encoder (R66) -/

/-- The R-format word. -/
def packR (opcode : Code) (rs rt rd shamt : BitVec 5) (funct : Code) : Word :=
  opcode ++ rs ++ rt ++ rd ++ shamt ++ funct

/-- The I-format word. -/
def packI (opcode : Code) (rs rt : RegIdx) (imm16 : BitVec 16) : Word :=
  opcode ++ rs ++ rt ++ imm16

/-- The J-format word. -/
def packJ (opcode : Code) (address : BitVec 26) : Word :=
  opcode ++ address

/-- The fields of a decode result, packed again (R66, R72). -/
def Decoded.reencode : Decoded → Word
  | .r opcode rs rt rd shamt funct => packR opcode rs rt rd shamt funct
  | .i opcode rs rt immediate => packI opcode rs rt (rawImmediate immediate)
  | .j opcode address => packJ opcode address

/-- The word of an instruction under any numerals. -/
def encodeWith (n : Numerals) : Instr → Word
  | .add rs rt rd shamt => packR 0 rs rt rd shamt n.functAdd
  | .sub rs rt rd shamt => packR 0 rs rt rd shamt n.functSub
  | .and rs rt rd shamt => packR 0 rs rt rd shamt n.functAnd
  | .or rs rt rd shamt => packR 0 rs rt rd shamt n.functOr
  | .slt rs rt rd shamt => packR 0 rs rt rd shamt n.functSlt
  | .sll rs rt rd shamt => packR 0 rs rt rd shamt n.functSll
  | .srl rs rt rd shamt => packR 0 rs rt rd shamt n.functSrl
  | .halt rs rt rd shamt => packR 0 rs rt rd shamt n.functHalt
  | .addi rs rt imm16 => packI n.opAddi rs rt imm16
  | .andi rs rt imm16 => packI n.opAndi rs rt imm16
  | .ori rs rt imm16 => packI n.opOri rs rt imm16
  | .slti rs rt imm16 => packI n.opSlti rs rt imm16
  | .lui rs rt imm16 => packI n.opLui rs rt imm16
  | .beq rs rt imm16 => packI n.opBeq rs rt imm16
  | .bne rs rt imm16 => packI n.opBne rs rt imm16
  | .lw rs rt imm16 => packI n.opLw rs rt imm16
  | .sw rs rt imm16 => packI n.opSw rs rt imm16
  | .j address => packJ n.opJ address

/-- The word of an instruction under the default numerals. -/
def encode (i : Instr) : Word := encodeWith Config.numerals i

/-! ## The opcode table -/

/-- A row of the opcode table: a word is the row's instruction exactly when `w &&& mask = bits`. -/
structure OpcodeRow where
  mnemonic : String
  mask : Word
  bits : Word
  deriving DecidableEq, Repr

/-- The 18 rows of the opcode table (30_encoding.md R53, R60, R62), with the default numerals. -/
def opcodeTable : List OpcodeRow :=
  [⟨"ADD", 0xFC00003F, 0x00000020⟩, ⟨"SUB", 0xFC00003F, 0x00000022⟩, ⟨"AND", 0xFC00003F, 0x00000024⟩,
   ⟨"OR", 0xFC00003F, 0x00000025⟩, ⟨"SLT", 0xFC00003F, 0x0000002A⟩, ⟨"SLL", 0xFC00003F, 0x00000000⟩,
   ⟨"SRL", 0xFC00003F, 0x00000002⟩, ⟨"HALT", 0xFC00003F, 0x0000003F⟩, ⟨"ADDI", 0xFC000000, 0x20000000⟩,
   ⟨"ANDI", 0xFC000000, 0x30000000⟩, ⟨"ORI", 0xFC000000, 0x34000000⟩, ⟨"SLTI", 0xFC000000, 0x28000000⟩,
   ⟨"LUI", 0xFC000000, 0x3C000000⟩, ⟨"BEQ", 0xFC000000, 0x10000000⟩, ⟨"BNE", 0xFC000000, 0x14000000⟩,
   ⟨"LW", 0xFC000000, 0x8C000000⟩, ⟨"SW", 0xFC000000, 0xAC000000⟩, ⟨"J", 0xFC000000, 0x08000000⟩]

/-- The mnemonic of an instruction, as the opcode table spells it. -/
def Instr.mnemonic : Instr → String
  | .add _ _ _ _ => "ADD"
  | .sub _ _ _ _ => "SUB"
  | .and _ _ _ _ => "AND"
  | .or _ _ _ _ => "OR"
  | .slt _ _ _ _ => "SLT"
  | .sll _ _ _ _ => "SLL"
  | .srl _ _ _ _ => "SRL"
  | .halt _ _ _ _ => "HALT"
  | .addi _ _ _ => "ADDI"
  | .andi _ _ _ => "ANDI"
  | .ori _ _ _ => "ORI"
  | .slti _ _ _ => "SLTI"
  | .lui _ _ _ => "LUI"
  | .beq _ _ _ => "BEQ"
  | .bne _ _ _ => "BNE"
  | .lw _ _ _ => "LW"
  | .sw _ _ _ => "SW"
  | .j _ => "J"

end Sys2Proof
end

