-- ==== Sys2Proof/Machine/State.lean ====
section
/-! DEFINITION. The architectural state (10_state.md), as plain data, and its reset value (R24). -/

namespace Sys2Proof.Machine

/-- What an index that `cells` does not list reads as. An image's word 0 is not listed, so this is no value the
model assumes of a memory: it is how the word 0 is written down (log entry 5). -/
abbrev unlistedWord : Word := 0

/-- The memory array (R19): `size` words, the word at an index being the one `cells` lists for it, and
`unlistedWord` where `cells` lists none. The size is the array's length, `MEM_WORDS` (00_scope.md R3); no instruction changes it. The
unit is the whole 32-bit word: the spec forbids a byte view (20_memory.md R33; log entry 5). -/
structure Memory where
  size : Nat
  cells : List (Nat × Word)
  deriving DecidableEq, Repr

/-- The canonical form: indices strictly rising, no `unlistedWord` listed, every index inside the array. Two well-formed
memories with the same size and the same words are equal data. -/
abbrev Memory.wf (m : Memory) : Prop :=
  m.cells.Pairwise (fun a b => a.1 < b.1) ∧ ∀ c ∈ m.cells, c.2 ≠ unlistedWord ∧ c.1 < m.size

/-- The listed cells of the words of an image from index `i` on. -/
def cellsFrom (i : Nat) : List Word → List (Nat × Word)
  | [] => []
  | w :: rest => if w = unlistedWord then cellsFrom (i + 1) rest else (i, w) :: cellsFrom (i + 1) rest

/-- The memory an image gives: `mem[i] = IMAGE[i]` for every `i`, and `MEM_WORDS` its length (R19, R4). -/
def Memory.ofImage (image : List Word) : Memory where
  size := image.length
  cells := cellsFrom 0 image

/-- The three kinds of memory access (R18). -/
inductive AccessKind where
  | fetch
  | load
  | store
  deriving DecidableEq, Repr

/-- The fault latch (R18). -/
inductive FaultLatch where
  /-- No fatal condition has been raised. -/
  | none
  /-- A fetched word was not one of the 18 instructions (60_exceptions.md R131). -/
  | unsupportedOperation (fmt : Format) (code : Code)
  /-- A fetch, load or store outside the memory array (R132). -/
  | outOfBoundsAccess (kind : AccessKind) (addr : Word)
  deriving DecidableEq, Repr

/-- The complete state of the hardware (the tuple at the head of 10_state.md). -/
structure State where
  /-- The general registers; register 0 is an ordinary one (R10). -/
  x : Vector Word 32
  /-- The program counter: the byte address of the instruction being executed (R13, R14). -/
  pc : Word
  /-- The run flag (R15). -/
  running : Bool
  /-- `count_funct`: executions of R-format instructions, by funct (R16). -/
  countFunct : Vector Nat 64
  /-- `count_opcode`: executions of I- and J-format instructions, by opcode (R16). -/
  countOpcode : Vector Nat 64
  /-- The memory, shared by instructions and data (R19). -/
  mem : Memory
  /-- The fault latch (R18). -/
  fault : FaultLatch
  deriving DecidableEq, Repr

/-- Why no step happens: the treatment "stuck" of 93_implementation_defined.md I14 (40_decoder_and_cycle.md R74,
R80). Raised by `step` only; the state holds. Safe: the machine has no move there (log entry 6). -/
inductive Fault where
  /-- `running = 0` and no fault latched. Raised by `step` on a halted machine. Safe. -/
  | halted
  /-- A fatal condition is latched; which one stands in the latch. Raised by `step` on a faulted machine. Safe. -/
  | faulted
  deriving DecidableEq, Repr

/-- Why an instruction has no meaning. Every instruction of this model has one, so nothing answers with it. -/
inductive Refusal where
  /-- An instruction whose meaning is not written. Raised by no arm of `exec`. Safe. -/
  | notModelled (mnemonic : String)
  deriving DecidableEq, Repr

/-- The reset state over a memory: every other piece of state at the value of R24. -/
def State.initial (mem : Memory) : State where
  x := Vector.replicate 32 0
  pc := 0
  running := true
  countFunct := Vector.replicate 64 0
  countOpcode := Vector.replicate 64 0
  mem := mem
  fault := .none

/-- The reset state for an image: "exactly one initial state per choice of the parameters"
(70_reset_and_hazards.md R151). The list's length is taken as `MEM_WORDS` (log entry 20, DESIGN CHOICE). -/
def State.boot (image : List Word) : State := State.initial (Memory.ofImage image)

/-- The machine right after reset, for the default `MEM_WORDS = 1024` (log entry 3) and the image with every
word 0 (log entry 4, DESIGN CHOICE): a program is loaded from outside the machine, by `State.boot`. -/
def State.reset : State := State.initial { size := Config.defaultMemWords, cells := [] }

end Sys2Proof.Machine
end

