-- ==== Sys2Proof/Machine/Ops.lean ====
section
/-! DEFINITION. The named operations over registers, counters, pc, memory and the fault latch. -/

namespace Sys2Proof.Machine

/-- What an instruction or a step answers. -/
abbrev Result := Host.Outcome State Fault Refusal

/-! ## Registers (10_state.md R10, R12) -/

/-- `x[r]`: register 0 is read like any other (R10). -/
def State.reg (s : State) (r : RegIdx) : Word := s.x[r.toNat]'r.isLt

/-- `x[r] <- v`: register 0 is written like any other (R10). -/
def State.setReg (s : State) (r : RegIdx) (v : Word) : State :=
  { s with x := s.x.set r.toNat v r.isLt }

/-! ## Program counter (R13, R78) -/

/-- `pc <- v`. -/
def State.setPc (s : State) (v : Word) : State := { s with pc := v }

/-- `pc <- pc + 4`, modulo 2^32 (R13). -/
def State.advancePc (s : State) : State := s.setPc (s.pc + 4)

/-! ## Counters (R16, R77) -/

/-- `count_funct[f]`. -/
def State.functCount (s : State) (f : Code) : Nat := s.countFunct[f.toNat]'f.isLt

/-- `count_opcode[o]`. -/
def State.opcodeCount (s : State) (o : Code) : Nat := s.countOpcode[o.toNat]'o.isLt

/-- `count_funct[f] += 1`. -/
def State.tickFunct (s : State) (f : Code) : State :=
  { s with countFunct := s.countFunct.set f.toNat (s.functCount f + 1) f.isLt }

/-- `count_opcode[o] += 1`. -/
def State.tickOpcode (s : State) (o : Code) : State :=
  { s with countOpcode := s.countOpcode.set o.toNat (s.opcodeCount o + 1) o.isLt }

/-! ## Run flag, fault latch and memory as a whole (R15, R18, R19) -/

/-- `running <- 0`. -/
def State.clearRunning (s : State) : State := { s with running := false }

/-- The latch written. -/
def State.setFault (s : State) (c : FaultLatch) : State := { s with fault := c }

/-- The memory array replaced. -/
def State.setMem (s : State) (m : Memory) : State := { s with mem := m }

/-! ## Memory (20_memory.md R31, R34, R36 to R38) -/

/-- The word listed for an index, `unlistedWord` where none is. -/
def lookupWord : List (Nat × Word) → Nat → Word
  | [], _ => unlistedWord
  | (k, v) :: rest, i => if k = i then v else lookupWord rest i

/-- The cells with `(i, v)` put at its place. -/
def insertWord : List (Nat × Word) → Nat → Word → List (Nat × Word)
  | [], i, v => [(i, v)]
  | (k, w) :: rest, i, v =>
    if i < k then (i, v) :: (k, w) :: rest else (k, w) :: insertWord rest i v

/-- The cells without index `i`. -/
def eraseWord (cells : List (Nat × Word)) (i : Nat) : List (Nat × Word) :=
  cells.filter fun c => c.1 ≠ i

/-- `mem[i]`. -/
def Memory.word (m : Memory) (i : Nat) : Word := lookupWord m.cells i

/-- `mem[i] <- v`, all 32 bits (R38); `unlistedWord` is not listed, so that equal memories are equal data. -/
def Memory.setWord (m : Memory) (i : Nat) (v : Word) : Memory :=
  { m with cells := if v = unlistedWord then eraseWord m.cells i else insertWord (eraseWord m.cells i) i v }

/-- The word index of a byte address, its low two bits dropped: `unsigned(a) div 4` (R34, R36). -/
def wordIndex (a : Word) : Nat := a.toNat / 4

/-- The bounds check of every access (R36). -/
def Memory.inBounds (m : Memory) (a : Word) : Bool := decide (wordIndex a < m.size)

/-- `MemRead(a, 4)`: the word that contains byte address `a`; none out of bounds (R37). -/
def Memory.load (m : Memory) (a : Word) : Option Word :=
  if m.inBounds a then some (m.word (wordIndex a)) else none

/-- `MemWrite(a, 4, v)`: none, and nothing written, out of bounds (R38). -/
def Memory.store (m : Memory) (a : Word) (v : Word) : Option Memory :=
  if m.inBounds a then some (m.setWord (wordIndex a) v) else none

/-- The instruction fetch: the word at `pc`; none out of bounds (R39). -/
def fetchWord (s : State) : Option Word := s.mem.load s.pc

/-- The word stored where the next fetch reads, where that is inside the memory. -/
def putFetchWord (s : State) (w : Word) : State :=
  match s.mem.store s.pc w with
  | some mem => s.setMem mem
  | none => s

/-! ## Raising a fatal condition (60_exceptions.md R131, R132, R136) -/

/-- The one way a fatal condition is taken: the latch records it and "no other state changes", in particular not
`pc`, not `running` and no counter (R136, R8). Nothing is saved and control goes nowhere. The latch is written
"only when it is `None`" (10_state.md R18). There is no return beside it (R138): only reset clears the latch. -/
def raiseFault (c : FaultLatch) (s : State) : State :=
  match s.fault with
  | .none => s.setFault c
  | .unsupportedOperation _ _ => s
  | .outOfBoundsAccess _ _ => s

/-- An instruction or fetch that raises: its next state. -/
def raised (c : FaultLatch) (s : State) : Result := .next (raiseFault c s)

/-- The condition a word that is no instruction raises (R131). -/
def unsupportedLatch (u : Unsupported) : FaultLatch := .unsupportedOperation u.fmt u.code

/-- Why no step happens, if none does: a step happens exactly when `running = 1` and `fault = None` (R74). -/
def stopReason (s : State) : Option Fault :=
  match s.fault with
  | .none => if s.running then none else some .halted
  | .unsupportedOperation _ _ => some .faulted
  | .outOfBoundsAccess _ _ => some .faulted

/-! ## Commit: the shared ends of the instruction rules (40_decoder_and_cycle.md R75 action 5) -/

/-- The commit of an R-format ALU instruction (41_r_type_alu.md R90). -/
def commitR (funct : Code) (rd : RegIdx) (v : Word) (s : State) : Result :=
  .next (((s.setReg rd v).advancePc).tickFunct funct)

/-- The commit of an I-format instruction that writes a register (43_i_type_alu.md R105). -/
def commitI (opcode : Code) (rt : RegIdx) (v : Word) (s : State) : Result :=
  .next (((s.setReg rt v).advancePc).tickOpcode opcode)

/-- The commit of a control transfer: `pc` and one counter (44_branch.md R112; 46_jump.md R121). -/
def commitJump (opcode : Code) (target : Word) (s : State) : Result :=
  .next ((s.setPc target).tickOpcode opcode)

/-- The commit of a store: the memory, `pc` and one counter (45_load_store.md R118). -/
def commitStore (opcode : Code) (mem : Memory) (s : State) : Result :=
  .next (((s.setMem mem).advancePc).tickOpcode opcode)

/-- The commit of HALT: `running` and one counter, `pc` kept (42_halt.md R100). -/
def commitHalt (funct : Code) (s : State) : Result :=
  .next (s.clearRunning.tickFunct funct)

end Sys2Proof.Machine
end

