-- ==== Sys2Proof/Machine/Operands.lean ====
section
/-! DEFINITION. Every operand form (30_encoding.md R55 to R58; 45_load_store.md R116). -/

namespace Sys2Proof.Machine

/-- `sext_32(imm16)`: the immediate as the Decoder hands it over (R54); ADDI, SLTI, LW, SW, BEQ, BNE (R55). -/
def sext32 (imm16 : BitVec 16) : Word := extendImmediate imm16

/-- `sext_32(imm16) & 0x0000FFFF`: the re-masked immediate of ANDI and ORI, which is `zext_32(imm16)` (R55). -/
def zext32 (imm16 : BitVec 16) : Word := extendImmediate imm16 &&& (0x0000FFFF : Word)

/-- `(sext_32(imm16) & 0xFFFF) << 16`: the immediate of LUI, `imm16` above 16 zeros (R55). -/
def upperImmediate (imm16 : BitVec 16) : Word := zext32 imm16 <<< 16

/-- The shift-left operand: a 5-bit amount, zeros entering at bit 0 (R58, R96). -/
def shiftLeft (a : Word) (shamt : BitVec 5) : Word := a <<< shamt.toNat

/-- The logical shift right: a 5-bit amount, zeros entering at bit 31 (R58, R97). -/
def shiftRight (a : Word) (shamt : BitVec 5) : Word := a >>> shamt.toNat

/-- The byte offset of a branch: `sext_32(imm16) << 2` (R56). -/
def branchOffset (imm16 : BitVec 16) : Word := sext32 imm16 <<< 2

/-- The target of a branch at `pc`, relative to the next instruction, modulo 2^32 (44_branch.md R112). -/
def branchTarget (pc : Word) (imm16 : BitVec 16) : Word := pc + 4 + branchOffset imm16

/-- The target of a J at `pc`: `(pc & 0xF0000000) | (zext_32(address) << 2)` (R57). -/
def jumpTarget (pc : Word) (address : BitVec 26) : Word :=
  (pc &&& (0xF0000000 : Word)) ||| ((address.setWidth 32 : Word) <<< 2)

/-- The effective address of LW and SW: `x[rs] + sext_32(imm16)`, modulo 2^32 (R116). -/
def effectiveAddress (s : State) (rs : RegIdx) (imm16 : BitVec 16) : Word := s.reg rs + sext32 imm16

end Sys2Proof.Machine
end

