-- ==== Sys2Proof/Machine/Flags.lean ====
section
/-! DEFINITION. The hardware has no flags (10_state.md R20): "comparisons (SLT, SLTI) write their result to a
general register; BEQ and BNE compare two registers directly". Here stand those two comparisons. -/

namespace Sys2Proof.Machine

/-- `a <s b`, a true comparison of the signed readings (41_r_type_alu.md R95). -/
def signedLess (a b : Word) : Bool := decide (a.toInt < b.toInt)

/-- The result word of SLT and SLTI: 1 if `a <s b`, else 0 (R95, 43_i_type_alu.md R109). -/
def setOnLess (a b : Word) : Word := if signedLess a b then 1 else 0

/-- The comparison of the branches, of the 32-bit patterns (44_branch.md R112). -/
def samePattern (a b : Word) : Bool := decide (a = b)

end Sys2Proof.Machine
end

