-- ==== Sys2Proof/Machine/Branch.lean ====
section
/-! DEFINITION. The conditional branches (44_branch.md). No delay slot, no bounds check of the target (R112). -/

namespace Sys2Proof.Machine

/-- BEQ (R113). -/
def execBeq (rs rt : RegIdx) (imm16 : BitVec 16) (s : State) : Result :=
  commitJump Config.numerals.opBeq
    (if samePattern (s.reg rs) (s.reg rt) then branchTarget s.pc imm16 else s.pc + 4) s

/-- BNE (R114). -/
def execBne (rs rt : RegIdx) (imm16 : BitVec 16) (s : State) : Result :=
  commitJump Config.numerals.opBne
    (if samePattern (s.reg rs) (s.reg rt) then s.pc + 4 else branchTarget s.pc imm16) s

end Sys2Proof.Machine
end

