-- ==== Sys2Proof/Machine/Halt.lean ====
section
/-! DEFINITION. HALT, the only system instruction (42_halt.md). -/

namespace Sys2Proof.Machine

/-- HALT (R100): all four fields ignored; it counts itself (D14, log entry 14). -/
def execHalt (_rs _rt _rd _shamt : BitVec 5) (s : State) : Result :=
  commitHalt Config.numerals.functHalt s

end Sys2Proof.Machine
end

