-- ==== Sys2Proof/Machine/IType.lean ====
section
/-! DEFINITION. The I-format ALU instructions (43_i_type_alu.md): ADDI and SLTI use the sign-extended immediate,
ANDI, ORI and LUI its low 16 bits unsigned (R105). -/

namespace Sys2Proof.Machine

/-- ADDI (R106). -/
def execAddi (rs rt : RegIdx) (imm16 : BitVec 16) (s : State) : Result :=
  commitI Config.numerals.opAddi rt (s.reg rs + sext32 imm16) s

/-- ANDI (R107). -/
def execAndi (rs rt : RegIdx) (imm16 : BitVec 16) (s : State) : Result :=
  commitI Config.numerals.opAndi rt (s.reg rs &&& zext32 imm16) s

/-- ORI (R108). -/
def execOri (rs rt : RegIdx) (imm16 : BitVec 16) (s : State) : Result :=
  commitI Config.numerals.opOri rt (s.reg rs ||| zext32 imm16) s

/-- SLTI (R109). -/
def execSlti (rs rt : RegIdx) (imm16 : BitVec 16) (s : State) : Result :=
  commitI Config.numerals.opSlti rt (setOnLess (s.reg rs) (sext32 imm16)) s

/-- LUI (R110): no register is read, `rs` is ignored. -/
def execLui (_rs rt : RegIdx) (imm16 : BitVec 16) (s : State) : Result :=
  commitI Config.numerals.opLui rt (upperImmediate imm16) s

end Sys2Proof.Machine
end

