-- ==== Sys2Proof/Machine/Jump.lean ====
section
/-! DEFINITION. The jump (46_jump.md). -/

namespace Sys2Proof.Machine

/-- J (R121): the region bits come from the address of the J itself. -/
def execJ (address : BitVec 26) (s : State) : Result :=
  commitJump Config.numerals.opJ (jumpTarget s.pc address) s

end Sys2Proof.Machine
end

