-- ==== Sys2Proof/Machine/LoadStore.lean ====
section
/-! DEFINITION. The load and the store (45_load_store.md). Out of bounds they raise and change nothing but the
latch (R117, R118; 60_exceptions.md R132). -/

namespace Sys2Proof.Machine

/-- LW (R117). -/
def execLw (rs rt : RegIdx) (imm16 : BitVec 16) (s : State) : Result :=
  match s.mem.load (effectiveAddress s rs imm16) with
  | some v => commitI Config.numerals.opLw rt v s
  | none => raised (.outOfBoundsAccess .load (effectiveAddress s rs imm16)) s

/-- SW (R118). -/
def execSw (rs rt : RegIdx) (imm16 : BitVec 16) (s : State) : Result :=
  match s.mem.store (effectiveAddress s rs imm16) (s.reg rt) with
  | some mem => commitStore Config.numerals.opSw mem s
  | none => raised (.outOfBoundsAccess .store (effectiveAddress s rs imm16)) s

end Sys2Proof.Machine
end

