-- ==== Sys2Proof/Machine/RType.lean ====
section
/-! DEFINITION. The R-format ALU instructions (41_r_type_alu.md). `shamt` (of the first five) and `rs` (of the
shifts) are ignored (30_encoding.md R62). -/

namespace Sys2Proof.Machine

/-- ADD (R91). -/
def execAdd (rs rt rd _shamt : BitVec 5) (s : State) : Result :=
  commitR Config.numerals.functAdd rd (s.reg rs + s.reg rt) s

/-- SUB (R92). -/
def execSub (rs rt rd _shamt : BitVec 5) (s : State) : Result :=
  commitR Config.numerals.functSub rd (s.reg rs - s.reg rt) s

/-- AND (R93). -/
def execAnd (rs rt rd _shamt : BitVec 5) (s : State) : Result :=
  commitR Config.numerals.functAnd rd (s.reg rs &&& s.reg rt) s

/-- OR (R94). -/
def execOr (rs rt rd _shamt : BitVec 5) (s : State) : Result :=
  commitR Config.numerals.functOr rd (s.reg rs ||| s.reg rt) s

/-- SLT (R95). -/
def execSlt (rs rt rd _shamt : BitVec 5) (s : State) : Result :=
  commitR Config.numerals.functSlt rd (setOnLess (s.reg rs) (s.reg rt)) s

/-- SLL (R96). -/
def execSll (_rs rt rd shamt : BitVec 5) (s : State) : Result :=
  commitR Config.numerals.functSll rd (shiftLeft (s.reg rt) shamt) s

/-- SRL (R97). -/
def execSrl (_rs rt rd shamt : BitVec 5) (s : State) : Result :=
  commitR Config.numerals.functSrl rd (shiftRight (s.reg rt) shamt) s

end Sys2Proof.Machine
end

