-- ==== Sys2Proof/Machine/Step.lean ====
section
/-! DEFINITION. One step: fetch, decode, dispatch, execute, commit (40_decoder_and_cycle.md R75). -/

namespace Sys2Proof.Machine

/-- One step (R75). A stopped machine takes none (R74): the reason is answered and the state holds. The first
condition met is raised: the fetch's, then dispatch's, then the instruction's own (60_exceptions.md R135). -/
def step (s : State) : Host.Outcome State Fault Refusal :=
  match stopReason s with
  | some reason => .fault reason
  | none =>
    match fetchWord s with
    | none => raised (.outOfBoundsAccess .fetch s.pc) s
    | some w =>
      match decodeInstr w with
      | .error u => raised (unsupportedLatch u) s
      | .ok i => exec i s

/-- `s` with the instruction of `w`'s low `nbits` bits stored at the word the next fetch reads, and nothing else
changed (log entry 8). -/
def State.withFetchWord (s : State) (nbits w : Nat) : State :=
  putFetchWord s (BitVec.ofNat 32 (w % 2 ^ nbits))

end Sys2Proof.Machine
end

