-- ==== Sys2Proof/Machine/Clock.lean ====
section
/-! DEFINITION. The hardware at its clock edge (70_reset_and_hazards.md R150, R158; 40_decoder_and_cycle.md R74):
reset wins over everything, a stopped machine holds, otherwise one step happens. -/

namespace Sys2Proof.Machine

/-- The state after an edge without reset: one step, or all state held where no step happens (R74, R80). -/
def hold (s : State) (r : Result) : State :=
  match r with
  | .next t => t
  | .fault _ => s
  | .refused _ => s

/-- One clock edge. `rst` asserted comes with the image the loader supplies, and gives the reset state "whatever
the state was before" (R150). DESIGN CHOICE (log entry 20): 60_exceptions.md R147 has the host supply exactly
`MEM_WORDS` words and gives no behaviour otherwise; here the list supplied sets the memory's size, whatever its
length. -/
def clock (rst : Option (List Word)) (s : State) : State :=
  match rst with
  | some image => State.boot image
  | none => hold s (step s)

/-- `k` clock edges without reset. -/
def clockRun : Nat → State → State
  | 0, s => s
  | k + 1, s => clockRun k (clock none s)

end Sys2Proof.Machine
end

