-- ==== Sys2Proof/Machine/HostPort.lean ====
section
/-! DEFINITION. What the host sees (60_exceptions.md R133, R147; 40_decoder_and_cycle.md R83): the stop and fault
outputs and the read-out. Nothing here changes state. -/

namespace Sys2Proof.Machine

/-- The `halted` output: not `running` (R83). -/
def haltedPort (s : State) : Bool := !s.running

/-- The `fault_valid` output (R133). -/
def faultValid (f : FaultLatch) : Bool :=
  match f with
  | .none => false
  | .unsupportedOperation _ _ => true
  | .outOfBoundsAccess _ _ => true

/-- The `fault_cause` output (R133). -/
def faultCause (f : FaultLatch) : Nat :=
  match f with
  | .none => 0
  | .unsupportedOperation _ _ => 1
  | .outOfBoundsAccess .fetch _ => 2
  | .outOfBoundsAccess .load _ => 3
  | .outOfBoundsAccess .store _ => 4

/-- The two format bits of `fault_info` (R133). -/
def formatBits (fmt : Format) : BitVec 2 :=
  match fmt with
  | .r => 0
  | .i => 1
  | .j => 2

/-- The `fault_info` output, 32 bits (R133): for UnsupportedOperation the format in bits 7:6 and the code in bits
5:0, for OutOfBoundsAccess the byte address. -/
def faultInfo (f : FaultLatch) : Word :=
  match f with
  | .none => 0
  | .unsupportedOperation fmt code => (formatBits fmt ++ code).setWidth 32
  | .outOfBoundsAccess _ addr => addr

/-- The read-out of the registers: all 32 values (R147). -/
def registerReport (s : State) : List Word := s.x.toList

/-- The read-out of the memory: the nonzero words, each with its byte address, index times 4 (R147). -/
def memoryReport (s : State) : List (Nat × Word) := s.mem.cells.map fun c => (4 * c.1, c.2)

/-- The entries of a counter table that were ever executed, with their keys (R147, R17). -/
def countReport (table : List Nat) : List (Nat × Nat) :=
  (table.zipIdx.filter fun e => e.1 ≠ 0).map fun e => (e.2, e.1)

/-- The read-out of `count_funct`. -/
def functReport (s : State) : List (Nat × Nat) := countReport s.countFunct.toList

/-- The read-out of `count_opcode`. -/
def opcodeReport (s : State) : List (Nat × Nat) := countReport s.countOpcode.toList

/-- The number of instructions executed: the sum of all entries of both tables (R142). -/
def State.executed (s : State) : Nat := s.countFunct.toList.sum + s.countOpcode.toList.sum

end Sys2Proof.Machine
end

