-- ==== Sys2Proof/Safety.lean ====
section
/-! DEFINITION. The terms statements are made in: what a step leaves unchanged, what a good state is, what a stop
is, what an instruction reads, writes and counts. -/

namespace Sys2Proof.Machine

/-! ## Frames -/

/-- Every register but `d` holds what it held. -/
def RegsKeptBut (d : RegIdx) (s t : State) : Prop := ∀ r : RegIdx, r ≠ d → t.reg r = s.reg r

/-- Every register holds what it held. -/
def RegsKept (s t : State) : Prop := ∀ r : RegIdx, t.reg r = s.reg r

/-- The array has its length, and at every byte address the word that contains it reads as before, or is out of
bounds as before. -/
def MemKept (s t : State) : Prop := t.mem.size = s.mem.size ∧ ∀ a : Word, t.mem.load a = s.mem.load a

/-- As `MemKept`, but for the four byte addresses of the word that contains `ea`. -/
def MemKeptBut (ea : Word) (s t : State) : Prop :=
  t.mem.size = s.mem.size ∧ ∀ a : Word, wordIndex a ≠ wordIndex ea → t.mem.load a = s.mem.load a

/-- Exactly the entry `f` of `count_funct` is one higher, and no other entry of either table changed. -/
def CountsFunct (f : Code) (s t : State) : Prop :=
  (∀ g : Code, t.functCount g = s.functCount g + (if g = f then 1 else 0)) ∧
  (∀ o : Code, t.opcodeCount o = s.opcodeCount o)

/-- Exactly the entry `o` of `count_opcode` is one higher, and no other entry of either table changed. -/
def CountsOpcode (o : Code) (s t : State) : Prop :=
  (∀ g : Code, t.functCount g = s.functCount g) ∧
  (∀ p : Code, t.opcodeCount p = s.opcodeCount p + (if p = o then 1 else 0))

/-- No entry of either counter table changed. -/
def CountsNothing (s t : State) : Prop :=
  (∀ g : Code, t.functCount g = s.functCount g) ∧ (∀ o : Code, t.opcodeCount o = s.opcodeCount o)

/-- Neither the run flag nor the fault latch changed. -/
def RunStateKept (s t : State) : Prop := t.running = s.running ∧ t.fault = s.fault

/-- The condition `c` has been raised and nothing else happened (60_exceptions.md R136), the latch being written
only where it was `None` (10_state.md R18). -/
def OnlyLatched (c : FaultLatch) (s t : State) : Prop :=
  t.fault = (if s.fault = .none then c else s.fault) ∧ t.running = s.running ∧ t.pc = s.pc ∧
  RegsKept s t ∧ MemKept s t ∧ CountsNothing s t

/-! ## What an instruction names -/

/-- The registers an instruction reads (10_state.md R12, the table). -/
def readsOf : Instr → List RegIdx
  | .add rs rt _ _ => [rs, rt]
  | .sub rs rt _ _ => [rs, rt]
  | .and rs rt _ _ => [rs, rt]
  | .or rs rt _ _ => [rs, rt]
  | .slt rs rt _ _ => [rs, rt]
  | .sll _ rt _ _ => [rt]
  | .srl _ rt _ _ => [rt]
  | .halt _ _ _ _ => []
  | .addi rs _ _ => [rs]
  | .andi rs _ _ => [rs]
  | .ori rs _ _ => [rs]
  | .slti rs _ _ => [rs]
  | .lui _ _ _ => []
  | .beq rs rt _ => [rs, rt]
  | .bne rs rt _ => [rs, rt]
  | .lw rs _ _ => [rs]
  | .sw rs rt _ => [rs, rt]
  | .j _ => []

/-- The register an instruction writes, if it writes one (R12, the table). -/
def destOf : Instr → Option RegIdx
  | .add _ _ rd _ => some rd
  | .sub _ _ rd _ => some rd
  | .and _ _ rd _ => some rd
  | .or _ _ rd _ => some rd
  | .slt _ _ rd _ => some rd
  | .sll _ _ rd _ => some rd
  | .srl _ _ rd _ => some rd
  | .halt _ _ _ _ => none
  | .addi _ rt _ => some rt
  | .andi _ rt _ => some rt
  | .ori _ rt _ => some rt
  | .slti _ rt _ => some rt
  | .lui _ rt _ => some rt
  | .beq _ _ _ => none
  | .bne _ _ _ => none
  | .lw _ rt _ => some rt
  | .sw _ _ _ => none
  | .j _ => none

/-- The fields an instruction ignores, set to 0 (30_encoding.md R62, the table). -/
def clearIgnored : Instr → Instr
  | .add rs rt rd _ => .add rs rt rd 0
  | .sub rs rt rd _ => .sub rs rt rd 0
  | .and rs rt rd _ => .and rs rt rd 0
  | .or rs rt rd _ => .or rs rt rd 0
  | .slt rs rt rd _ => .slt rs rt rd 0
  | .sll _ rt rd shamt => .sll 0 rt rd shamt
  | .srl _ rt rd shamt => .srl 0 rt rd shamt
  | .halt _ _ _ _ => .halt 0 0 0 0
  | .addi rs rt imm16 => .addi rs rt imm16
  | .andi rs rt imm16 => .andi rs rt imm16
  | .ori rs rt imm16 => .ori rs rt imm16
  | .slti rs rt imm16 => .slti rs rt imm16
  | .lui _ rt imm16 => .lui 0 rt imm16
  | .beq rs rt imm16 => .beq rs rt imm16
  | .bne rs rt imm16 => .bne rs rt imm16
  | .lw rs rt imm16 => .lw rs rt imm16
  | .sw rs rt imm16 => .sw rs rt imm16
  | .j address => .j address

/-- The word index a store writes when it runs at `s`: none for an instruction that stores nothing, and none where
the store is out of bounds (45_load_store.md R118). -/
def storesAt (i : Instr) (s : State) : Option Nat :=
  match i with
  | .sw rs _ imm16 =>
    if s.mem.inBounds (effectiveAddress s rs imm16) then some (wordIndex (effectiveAddress s rs imm16))
    else none
  | .add _ _ _ _ | .sub _ _ _ _ | .and _ _ _ _ | .or _ _ _ _ | .slt _ _ _ _ | .sll _ _ _ _
  | .srl _ _ _ _ | .halt _ _ _ _ | .addi _ _ _ | .andi _ _ _ | .ori _ _ _ | .slti _ _ _ | .lui _ _ _
  | .beq _ _ _ | .bne _ _ _ | .lw _ _ _ | .j _ => none

/-- The condition an instruction raises when it runs at `s`, if any (60_exceptions.md R134, the table). -/
def raisesAt (i : Instr) (s : State) : Option FaultLatch :=
  match i with
  | .lw rs _ imm16 =>
    if s.mem.inBounds (effectiveAddress s rs imm16) then none
    else some (.outOfBoundsAccess .load (effectiveAddress s rs imm16))
  | .sw rs _ imm16 =>
    if s.mem.inBounds (effectiveAddress s rs imm16) then none
    else some (.outOfBoundsAccess .store (effectiveAddress s rs imm16))
  | .add _ _ _ _ | .sub _ _ _ _ | .and _ _ _ _ | .or _ _ _ _ | .slt _ _ _ _ | .sll _ _ _ _
  | .srl _ _ _ _ | .halt _ _ _ _ | .addi _ _ _ | .andi _ _ _ | .ori _ _ _ | .slti _ _ _ | .lui _ _ _
  | .beq _ _ _ | .bne _ _ _ | .j _ => none

/-- The counter entry an instruction's execution increments (40_decoder_and_cycle.md R77). -/
inductive CounterKey where
  | funct (f : Code)
  | opcode (o : Code)
  deriving DecidableEq, Repr

/-- The counter entry of an instruction: `funct` for R-format, `opcode` for I- and J-format (R77). -/
def counterOf : Instr → CounterKey
  | .add _ _ _ _ => .funct Config.numerals.functAdd
  | .sub _ _ _ _ => .funct Config.numerals.functSub
  | .and _ _ _ _ => .funct Config.numerals.functAnd
  | .or _ _ _ _ => .funct Config.numerals.functOr
  | .slt _ _ _ _ => .funct Config.numerals.functSlt
  | .sll _ _ _ _ => .funct Config.numerals.functSll
  | .srl _ _ _ _ => .funct Config.numerals.functSrl
  | .halt _ _ _ _ => .funct Config.numerals.functHalt
  | .addi _ _ _ => .opcode Config.numerals.opAddi
  | .andi _ _ _ => .opcode Config.numerals.opAndi
  | .ori _ _ _ => .opcode Config.numerals.opOri
  | .slti _ _ _ => .opcode Config.numerals.opSlti
  | .lui _ _ _ => .opcode Config.numerals.opLui
  | .beq _ _ _ => .opcode Config.numerals.opBeq
  | .bne _ _ _ => .opcode Config.numerals.opBne
  | .lw _ _ _ => .opcode Config.numerals.opLw
  | .sw _ _ _ => .opcode Config.numerals.opSw
  | .j _ => .opcode Config.numerals.opJ

/-- Exactly the entry of a key is one higher. -/
def Counts (k : CounterKey) (s t : State) : Prop :=
  match k with
  | .funct f => CountsFunct f s t
  | .opcode o => CountsOpcode o s t

/-! ## Stops (40_decoder_and_cycle.md R80, R81) -/

/-- Halted: `running = 0`, no fault (R80). -/
abbrev State.isHalted (s : State) : Prop := s.running = false ∧ s.fault = .none

/-- Faulted: a condition is latched (R80). -/
abbrev State.isFaulted (s : State) : Prop := s.fault ≠ .none

/-- Stopped: halted or faulted (R80). -/
abbrev State.isStopped (s : State) : Prop := s.isHalted ∨ s.isFaulted

/-- A step happens (R74). -/
abbrev State.isLive (s : State) : Prop := s.running = true ∧ s.fault = .none

/-- 1 where a condition is latched: the step that raised counts no instruction (70_reset_and_hazards.md R158). -/
def faultStep (s : State) : Nat := if s.fault = .none then 0 else 1

/-- The run from `s` ends at `t` after `k` steps: its `k` steps lead to `t` and `t` is stopped (R81). -/
def RunEnds (s : State) (k : Nat) (t : State) : Prop :=
  Host.Core.run Sys2Proof.core k s = .next t ∧ t.isStopped

/-- The run ends well: at a halted state (R81). -/
def RunEndsWell (s : State) (k : Nat) (t : State) : Prop := RunEnds s k t ∧ t.isHalted

/-- The run ends badly: at a faulted state (R81). -/
def RunEndsBadly (s : State) (k : Nat) (t : State) : Prop := RunEnds s k t ∧ t.isFaulted

/-! ## Good states -/

/-- The static facts: the memory is canonical and of an admitted size (R3), `pc` is a multiple of 4 (R14). -/
structure StaticInv (s : State) : Prop where
  memWf : s.mem.wf
  sizeAdmitted : memWordsWellFormed s.mem.size = true
  pcAligned : s.pc.toNat % 4 = 0

/-- "Only 18 entries can ever be nonzero" (10_state.md R16). -/
structure CounterInv (s : State) : Prop where
  functs : ∀ f : Code, f ∉ Config.numerals.functs → s.functCount f = 0
  opcodes : ∀ o : Code, o ∉ Config.numerals.opJ :: Config.numerals.iOpcodes → s.opcodeCount o = 0

/-- A stopped machine still shows why it stopped: halted, `pc` is at the HALT (40_decoder_and_cycle.md R81);
faulted, `running` is 1 (R80) and the latch tells the truth about the word at `pc`, which is the faulting
instruction's (60_exceptions.md R131, R132, R136). -/
def StopExplained (s : State) : Prop :=
  match s.fault with
  | .none =>
    s.running = true ∨
    ∃ w rs rt rd shamt, fetchWord s = some w ∧ decodeInstr w = .ok (.halt rs rt rd shamt)
  | .unsupportedOperation fmt code =>
    s.running = true ∧ ∃ w, fetchWord s = some w ∧ decodeInstr w = .error ⟨fmt, code⟩
  | .outOfBoundsAccess .fetch addr => s.running = true ∧ addr = s.pc ∧ fetchWord s = none
  | .outOfBoundsAccess .load addr =>
    s.running = true ∧ s.mem.load addr = none ∧
    ∃ w rs rt imm16, fetchWord s = some w ∧ decodeInstr w = .ok (.lw rs rt imm16) ∧
      addr = effectiveAddress s rs imm16
  | .outOfBoundsAccess .store addr =>
    s.running = true ∧ s.mem.load addr = none ∧
    ∃ w rs rt imm16, fetchWord s = some w ∧ decodeInstr w = .ok (.sw rs rt imm16) ∧
      addr = effectiveAddress s rs imm16

/-- A good state. -/
structure Inv (s : State) : Prop where
  static : StaticInv s
  counters : CounterInv s
  stop : StopExplained s

/-! ## Sequences of instructions -/

/-- The instructions of a list one after another, each at the state the last left, with no fetch between them. -/
def execAll : List Instr → State → Result
  | [], s => .next s
  | i :: rest, s =>
    match exec i s with
    | .next t => execAll rest t
    | .fault r => .fault r
    | .refused r => .refused r

/-- No instruction of the list, run so, stores to word `idx`. -/
def StoresNoneTo (idx : Nat) : List Instr → State → Prop
  | [], _ => True
  | i :: rest, s =>
    storesAt i s ≠ some idx ∧
    match exec i s with
    | .next t => StoresNoneTo idx rest t
    | .fault _ => True
    | .refused _ => True

end Sys2Proof.Machine
end

