-- ==== Sys2Proof/Certificates/Slice0/Obligations.lean ====
section
/-! DEFINITION. The statements for the provers. Each docstring names the rule of spec/ it formalises. A clause that
rests on a default numeral (00_scope.md R5; 93_implementation_defined.md G1, G2; log entries 1 and 2) or on one of
the spec's own decisions (92_eei_decisions.md) says so. -/

open Sys2Proof Sys2Proof.Machine

/-! ## The Decoder, the dispatch and the encoder -/

/-- R71 with the field positions of R51, the format selection of R52 and the sign extension of R54, in integers:
field `w[hi:lo]` is `w / 2^lo mod 2^(hi-lo+1)`, and the immediate is the raw field, less 65536 where bit 15 is set. -/
def Obligations.DecoderFieldsAreTheBitsOfTheWord : Prop :=
  ∀ w : Word,
    (w.toNat / 2 ^ 26 = 0 →
      ∃ op rs rt rd shamt funct, decode w = .r op rs rt rd shamt funct ∧ op = 0 ∧
        rs.toNat = w.toNat / 2 ^ 21 % 2 ^ 5 ∧ rt.toNat = w.toNat / 2 ^ 16 % 2 ^ 5 ∧
        rd.toNat = w.toNat / 2 ^ 11 % 2 ^ 5 ∧ shamt.toNat = w.toNat / 2 ^ 6 % 2 ^ 5 ∧
        funct.toNat = w.toNat % 2 ^ 6) ∧
    (w.toNat / 2 ^ 26 = 2 ∨ w.toNat / 2 ^ 26 = 3 →
      ∃ op address, decode w = .j op address ∧ op.toNat = w.toNat / 2 ^ 26 ∧
        address.toNat = w.toNat % 2 ^ 26) ∧
    (w.toNat / 2 ^ 26 ≠ 0 ∧ w.toNat / 2 ^ 26 ≠ 2 ∧ w.toNat / 2 ^ 26 ≠ 3 →
      ∃ op rs rt immediate, decode w = .i op rs rt immediate ∧ op.toNat = w.toNat / 2 ^ 26 ∧
        rs.toNat = w.toNat / 2 ^ 21 % 2 ^ 5 ∧ rt.toNat = w.toNat / 2 ^ 16 % 2 ^ 5 ∧
        immediate.toInt = if w.toNat % 2 ^ 16 < 2 ^ 15 then ((w.toNat % 2 ^ 16 : Nat) : Int)
          else ((w.toNat % 2 ^ 16 : Nat) : Int) - 65536)

/-- R72: decoding never fails and "loses no bit": every word's decode result is one of the three well-formed shapes
and its fields, encoded again, give back the word, for all 2^32 words. -/
def Obligations.DecoderLosesNoBit : Prop :=
  ∀ w : Word, (decode w).wellFormed = true ∧ (decode w).reencode = w

/-- R66 with R70: decoding the encoded fields of any well-formed decode result gives the same fields. R66 is
derived from R51 in the spec. -/
def Obligations.DecodedFieldsRoundTrip : Prop :=
  ∀ d : Decoded, d.wellFormed = true → decode d.reencode = d

/-- Decode of encode is the identity on all 18 instructions with every operand at every value, the ignored fields
included, under EVERY numeral assignment that meets the constraints of R5, the defaults being one. -/
def Obligations.DecodeOfEncodeUnderAllNumerals : Prop :=
  ∀ (n : Numerals) (i : Instr), n.wellFormed = true → decodeWith n (encodeWith n i) = .ok i

/-- Encode of decode is the identity on every word that is an instruction, under every numeral assignment: no two
words decode to the same `Instr`. That rests on the model's choice to let `Instr` carry the fields an instruction
ignores (log entry 10, DESIGN CHOICE); in the sense of R62 several words are one instruction. -/
def Obligations.EncodeOfDecodeUnderAllNumerals : Prop :=
  ∀ (n : Numerals) (w : Word) (i : Instr), decodeWith n w = .ok i → encodeWith n i = w

/-- R5: the default numerals (log entries 1 and 2) are the table's and meet the constraints; the memory size's
default is R3's 1024 words (log entry 3), an admitted size. -/
def Obligations.DefaultParametersAreAdmitted : Prop :=
  Config.numerals.wellFormed = true ∧ memWordsWellFormed Config.defaultMemWords = true ∧
  Config.defaultMemWords = 1024 ∧
  Config.numerals.functs = [0x20, 0x22, 0x24, 0x25, 0x2A, 0x00, 0x02, 0x3F] ∧
  Config.numerals.iOpcodes = [0x08, 0x0C, 0x0D, 0x0A, 0x0F, 0x04, 0x05, 0x23, 0x2B] ∧
  Config.numerals.opJ = 2

/-- The decoder agrees with the opcode table (R53, R60, R62), whose numerals are the defaults (log entries 1 and 2):
a word that decodes matches exactly the row of its own mnemonic, and a word that is rejected matches no row. -/
def Obligations.DecoderAgreesWithTheOpcodeTable : Prop :=
  ∀ w : Word,
    (∀ i, decodeInstr w = .ok i →
      ∀ row ∈ opcodeTable, (w &&& row.mask = row.bits ↔ row.mnemonic = i.mnemonic)) ∧
    (∀ u, decodeInstr w = .error u → ∀ row ∈ opcodeTable, w &&& row.mask ≠ row.bits)

/-- R61 with the codes of R131: the rejected words are exactly those of no row of the table, and the rejection names
the format the opcode selects and the code that was not recognised, `funct` for R and `opcode` for I and J. The
rows carry the default numerals (log entries 1 and 2). -/
def Obligations.IllegalWordsAreReportedByFormatAndCode : Prop :=
  ∀ (w : Word) (u : Unsupported),
    decodeInstr w = .error u ↔
      (∀ row ∈ opcodeTable, w &&& row.mask ≠ row.bits) ∧
      (w.toNat / 2 ^ 26 = 0 → u.fmt = .r ∧ u.code.toNat = w.toNat % 2 ^ 6) ∧
      (w.toNat / 2 ^ 26 = 2 ∨ w.toNat / 2 ^ 26 = 3 → u.fmt = .j ∧ u.code.toNat = w.toNat / 2 ^ 26) ∧
      (w.toNat / 2 ^ 26 ≠ 0 ∧ w.toNat / 2 ^ 26 ≠ 2 ∧ w.toNat / 2 ^ 26 ≠ 3 →
        u.fmt = .i ∧ u.code.toNat = w.toNat / 2 ^ 26)

/-- One word of each family, from the vectors of 95_test_vectors.md, and three illegal words (default numerals, log
entries 1 and 2). -/
def Obligations.SampleWordsDecode : Prop :=
  decodeInstr 0x00430820 = .ok (.add 2 3 1 0) ∧
  decodeInstr 0x00021902 = .ok (.srl 0 2 3 4) ∧
  decodeInstr 0x0000003F = .ok (.halt 0 0 0 0) ∧
  decodeInstr 0x2021FFFF = .ok (.addi 1 1 0xFFFF) ∧
  decodeInstr 0x1420FFFD = .ok (.bne 1 0 0xFFFD) ∧
  decodeInstr 0x8C030040 = .ok (.lw 0 3 0x40) ∧
  decodeInstr 0xAC220003 = .ok (.sw 1 2 3) ∧
  decodeInstr 0x0800000E = .ok (.j 14) ∧
  decodeInstr 0x00000021 = .error ⟨.r, 0x21⟩ ∧
  decodeInstr 0xFFFFFFFF = .error ⟨.i, 0x3F⟩ ∧
  decodeInstr 0x0C000000 = .error ⟨.j, 0x03⟩

/-! ## The step -/

/-- R75: on a machine that steps, when the word at `pc` decodes to an instruction, the step is exec of that
instruction at that state, with nothing around it: exec itself moves `pc`. (That the fetch is inside the hardware
is the spec's decision D1.) -/
def Obligations.StepRunsTheDecodedInstruction : Prop :=
  ∀ (s : State) (w : Word) (i : Instr),
    s.isLive → fetchWord s = some w → decodeInstr w = .ok i → step s = exec i s

/-- R39, R132, R136 for the fetch: a `pc` outside the memory raises OutOfBoundsAccess(Fetch, pc) and changes nothing
else. The latch and the frame are the spec's decisions D10 and D11 (log entries 6, 12). -/
def Obligations.FetchOutOfBoundsOnlyLatches : Prop :=
  ∀ s : State, s.isLive → s.mem.size ≤ s.pc.toNat / 4 →
    ∃ t, step s = .next t ∧ OnlyLatched (.outOfBoundsAccess .fetch s.pc) s t

/-- R131, R136 for dispatch: a word that is no instruction raises UnsupportedOperation with its format and code and
changes nothing else. The latch is the spec's decision D10 (log entry 6). -/
def Obligations.UnsupportedWordOnlyLatches : Prop :=
  ∀ (s : State) (w : Word) (u : Unsupported),
    s.isLive → fetchWord s = some w → decodeInstr w = .error u →
    ∃ t, step s = .next t ∧ OnlyLatched (.unsupportedOperation u.fmt u.code) s t

/-- R74, R80: a step happens exactly when `running = 1` and no fault is latched, whatever the state holds; else the
machine is stuck, and the model names why. (Decisions D1, D15; the named reasons are log entry 6.) -/
def Obligations.StepHappensExactlyWhenLive : Prop :=
  ∀ s : State,
    ((∃ t, step s = .next t) ↔ s.running = true ∧ s.fault = .none) ∧
    (step s = .fault .halted ↔ s.running = false ∧ s.fault = .none) ∧
    (step s = .fault .faulted ↔ s.fault ≠ .none)

/-! ## R-format instructions: every word of the row, every state -/

/-- R91. -/
def Obligations.AddWritesTheWrappedSum : Prop :=
  (∀ w : Word, w &&& 0xFC00003F = 0x00000020 →
    decodeInstr w = .ok (.add (rsOf w) (rtOf w) (rdOf w) (shamtOf w))) ∧
  ∀ (rs rt rd shamt : BitVec 5) (s : State), ∃ t, exec (.add rs rt rd shamt) s = .next t ∧
    (t.reg rd).toNat = ((s.reg rs).toNat + (s.reg rt).toNat) % 2 ^ 32 ∧
    RegsKeptBut rd s t ∧ t.pc = s.pc + 4 ∧ CountsFunct 0x20 s t ∧ MemKept s t ∧ RunStateKept s t

/-- R92. -/
def Obligations.SubWritesTheWrappedDifference : Prop :=
  (∀ w : Word, w &&& 0xFC00003F = 0x00000022 →
    decodeInstr w = .ok (.sub (rsOf w) (rtOf w) (rdOf w) (shamtOf w))) ∧
  ∀ (rs rt rd shamt : BitVec 5) (s : State), ∃ t, exec (.sub rs rt rd shamt) s = .next t ∧
    (((t.reg rd).toNat : Nat) : Int) = (((s.reg rs).toNat : Int) - ((s.reg rt).toNat : Int)) % 2 ^ 32 ∧
    RegsKeptBut rd s t ∧ t.pc = s.pc + 4 ∧ CountsFunct 0x22 s t ∧ MemKept s t ∧ RunStateKept s t

/-- R93; the numeral 0x24 is a default (log entry 1). -/
def Obligations.AndWritesTheBitwiseAnd : Prop :=
  (∀ w : Word, w &&& 0xFC00003F = 0x00000024 →
    decodeInstr w = .ok (.and (rsOf w) (rtOf w) (rdOf w) (shamtOf w))) ∧
  ∀ (rs rt rd shamt : BitVec 5) (s : State), ∃ t, exec (.and rs rt rd shamt) s = .next t ∧
    (∀ k, k < 32 → (t.reg rd).getLsbD k = ((s.reg rs).getLsbD k && (s.reg rt).getLsbD k)) ∧
    RegsKeptBut rd s t ∧ t.pc = s.pc + 4 ∧ CountsFunct 0x24 s t ∧ MemKept s t ∧ RunStateKept s t

/-- R94; the numeral 0x25 is a default (log entry 1). -/
def Obligations.OrWritesTheBitwiseOr : Prop :=
  (∀ w : Word, w &&& 0xFC00003F = 0x00000025 →
    decodeInstr w = .ok (.or (rsOf w) (rtOf w) (rdOf w) (shamtOf w))) ∧
  ∀ (rs rt rd shamt : BitVec 5) (s : State), ∃ t, exec (.or rs rt rd shamt) s = .next t ∧
    (∀ k, k < 32 → (t.reg rd).getLsbD k = ((s.reg rs).getLsbD k || (s.reg rt).getLsbD k)) ∧
    RegsKeptBut rd s t ∧ t.pc = s.pc + 4 ∧ CountsFunct 0x25 s t ∧ MemKept s t ∧ RunStateKept s t

/-- R95, a comparison of the signed readings; the numeral 0x2A is a default (log entry 1). -/
def Obligations.SltWritesTheSignedComparison : Prop :=
  (∀ w : Word, w &&& 0xFC00003F = 0x0000002A →
    decodeInstr w = .ok (.slt (rsOf w) (rtOf w) (rdOf w) (shamtOf w))) ∧
  ∀ (rs rt rd shamt : BitVec 5) (s : State), ∃ t, exec (.slt rs rt rd shamt) s = .next t ∧
    (t.reg rd).toNat = (if (s.reg rs).toInt < (s.reg rt).toInt then 1 else 0) ∧
    RegsKeptBut rd s t ∧ t.pc = s.pc + 4 ∧ CountsFunct 0x2A s t ∧ MemKept s t ∧ RunStateKept s t

/-- R96; the numeral 0x00 is a default (log entry 1). -/
def Obligations.SllWritesTheLeftShift : Prop :=
  (∀ w : Word, w &&& 0xFC00003F = 0x00000000 →
    decodeInstr w = .ok (.sll (rsOf w) (rtOf w) (rdOf w) (shamtOf w))) ∧
  ∀ (rs rt rd shamt : BitVec 5) (s : State), ∃ t, exec (.sll rs rt rd shamt) s = .next t ∧
    (t.reg rd).toNat = (s.reg rt).toNat * 2 ^ shamt.toNat % 2 ^ 32 ∧
    RegsKeptBut rd s t ∧ t.pc = s.pc + 4 ∧ CountsFunct 0x00 s t ∧ MemKept s t ∧ RunStateKept s t

/-- R97; the numeral 0x02 is a default (log entry 1). -/
def Obligations.SrlWritesTheLogicalRightShift : Prop :=
  (∀ w : Word, w &&& 0xFC00003F = 0x00000002 →
    decodeInstr w = .ok (.srl (rsOf w) (rtOf w) (rdOf w) (shamtOf w))) ∧
  ∀ (rs rt rd shamt : BitVec 5) (s : State), ∃ t, exec (.srl rs rt rd shamt) s = .next t ∧
    (t.reg rd).toNat = (s.reg rt).toNat / 2 ^ shamt.toNat ∧
    RegsKeptBut rd s t ∧ t.pc = s.pc + 4 ∧ CountsFunct 0x02 s t ∧ MemKept s t ∧ RunStateKept s t

/-- R100: HALT clears `running`, keeps `pc`, every register and all memory, and counts itself. The numeral 0x3F and
the counting are the spec's decisions D16 and D14 (log entries 2 and 14). -/
def Obligations.HaltOnlyClearsRunning : Prop :=
  (∀ w : Word, w &&& 0xFC00003F = 0x0000003F →
    decodeInstr w = .ok (.halt (rsOf w) (rtOf w) (rdOf w) (shamtOf w))) ∧
  ∀ (rs rt rd shamt : BitVec 5) (s : State), ∃ t, exec (.halt rs rt rd shamt) s = .next t ∧
    t.running = false ∧ t.fault = s.fault ∧ t.pc = s.pc ∧ RegsKept s t ∧ CountsFunct 0x3F s t ∧ MemKept s t

/-! ## I-format ALU instructions -/

/-- R106: the sum of the register and the signed immediate, its low 32 bits. The numeral 0x08 is a default (log
entry 1); the truncation is the spec's decision D5 (log entry 15). -/
def Obligations.AddiWritesTheWrappedSum : Prop :=
  (∀ w : Word, w &&& 0xFC000000 = 0x20000000 → decodeInstr w = .ok (.addi (rsOf w) (rtOf w) (imm16Of w))) ∧
  ∀ (rs rt : RegIdx) (imm16 : BitVec 16) (s : State), ∃ t, exec (.addi rs rt imm16) s = .next t ∧
    (((t.reg rt).toNat : Nat) : Int) = (((s.reg rs).toNat : Int) + imm16.toInt) % 2 ^ 32 ∧
    RegsKeptBut rt s t ∧ t.pc = s.pc + 4 ∧ CountsOpcode 0x08 s t ∧ MemKept s t ∧ RunStateKept s t

/-- R107: the mask is the unsigned immediate, so bits 31 to 16 of the result are 0. The numeral 0x0C is a default
(log entry 1). -/
def Obligations.AndiMasksWithTheUnsignedImmediate : Prop :=
  (∀ w : Word, w &&& 0xFC000000 = 0x30000000 → decodeInstr w = .ok (.andi (rsOf w) (rtOf w) (imm16Of w))) ∧
  ∀ (rs rt : RegIdx) (imm16 : BitVec 16) (s : State), ∃ t, exec (.andi rs rt imm16) s = .next t ∧
    (∀ k, k < 32 → (t.reg rt).getLsbD k = ((s.reg rs).getLsbD k && decide (k < 16) && imm16.getLsbD k)) ∧
    RegsKeptBut rt s t ∧ t.pc = s.pc + 4 ∧ CountsOpcode 0x0C s t ∧ MemKept s t ∧ RunStateKept s t

/-- R108: the operand is the unsigned immediate, so bits 31 to 16 of the result are the register's. The numeral 0x0D
is a default (log entry 1). -/
def Obligations.OriSetsTheUnsignedImmediate : Prop :=
  (∀ w : Word, w &&& 0xFC000000 = 0x34000000 → decodeInstr w = .ok (.ori (rsOf w) (rtOf w) (imm16Of w))) ∧
  ∀ (rs rt : RegIdx) (imm16 : BitVec 16) (s : State), ∃ t, exec (.ori rs rt imm16) s = .next t ∧
    (∀ k, k < 32 →
      (t.reg rt).getLsbD k = ((s.reg rs).getLsbD k || (decide (k < 16) && imm16.getLsbD k))) ∧
    RegsKeptBut rt s t ∧ t.pc = s.pc + 4 ∧ CountsOpcode 0x0D s t ∧ MemKept s t ∧ RunStateKept s t

/-- R109, against the sign-extended immediate; the numeral 0x0A is a default (log entry 1). -/
def Obligations.SltiWritesTheSignedComparison : Prop :=
  (∀ w : Word, w &&& 0xFC000000 = 0x28000000 → decodeInstr w = .ok (.slti (rsOf w) (rtOf w) (imm16Of w))) ∧
  ∀ (rs rt : RegIdx) (imm16 : BitVec 16) (s : State), ∃ t, exec (.slti rs rt imm16) s = .next t ∧
    (t.reg rt).toNat = (if (s.reg rs).toInt < imm16.toInt then 1 else 0) ∧
    RegsKeptBut rt s t ∧ t.pc = s.pc + 4 ∧ CountsOpcode 0x0A s t ∧ MemKept s t ∧ RunStateKept s t

/-- R110; the numeral 0x0F is a default (log entry 1), the 32-bit result the spec's decision D5 (log entry 15). -/
def Obligations.LuiWritesTheUpperHalf : Prop :=
  (∀ w : Word, w &&& 0xFC000000 = 0x3C000000 → decodeInstr w = .ok (.lui (rsOf w) (rtOf w) (imm16Of w))) ∧
  ∀ (rs rt : RegIdx) (imm16 : BitVec 16) (s : State), ∃ t, exec (.lui rs rt imm16) s = .next t ∧
    (t.reg rt).toNat = imm16.toNat * 2 ^ 16 ∧
    RegsKeptBut rt s t ∧ t.pc = s.pc + 4 ∧ CountsOpcode 0x0F s t ∧ MemKept s t ∧ RunStateKept s t

/-! ## Branches and the jump -/

/-- R112, R113: taken on equal patterns, to `pc + 4 + 4 * imm` modulo 2^32, without a check of the target. The
numeral 0x04 is a default (log entry 1); the wrap and the missing check are decisions D6 and D12 (log entries 15
and 13). -/
def Obligations.BeqBranchesOnEqual : Prop :=
  (∀ w : Word, w &&& 0xFC000000 = 0x10000000 → decodeInstr w = .ok (.beq (rsOf w) (rtOf w) (imm16Of w))) ∧
  ∀ (rs rt : RegIdx) (imm16 : BitVec 16) (s : State), ∃ t, exec (.beq rs rt imm16) s = .next t ∧
    (s.reg rs = s.reg rt → ((t.pc.toNat : Nat) : Int) = ((s.pc.toNat : Int) + 4 + 4 * imm16.toInt) % 2 ^ 32) ∧
    (s.reg rs ≠ s.reg rt → t.pc = s.pc + 4) ∧
    RegsKept s t ∧ CountsOpcode 0x04 s t ∧ MemKept s t ∧ RunStateKept s t

/-- R112, R114 (90_conflicts.md C9: taken on unequal patterns). The numeral 0x05 is a default (log entry 1); the
wrap and the missing check are decisions D6 and D12 (log entries 15 and 13). -/
def Obligations.BneBranchesOnNotEqual : Prop :=
  (∀ w : Word, w &&& 0xFC000000 = 0x14000000 → decodeInstr w = .ok (.bne (rsOf w) (rtOf w) (imm16Of w))) ∧
  ∀ (rs rt : RegIdx) (imm16 : BitVec 16) (s : State), ∃ t, exec (.bne rs rt imm16) s = .next t ∧
    (s.reg rs ≠ s.reg rt → ((t.pc.toNat : Nat) : Int) = ((s.pc.toNat : Int) + 4 + 4 * imm16.toInt) % 2 ^ 32) ∧
    (s.reg rs = s.reg rt → t.pc = s.pc + 4) ∧
    RegsKept s t ∧ CountsOpcode 0x05 s t ∧ MemKept s t ∧ RunStateKept s t

/-- R121: the high 4 bits of the J's own `pc` are kept, and the low 28 are the address times 4. The choice of opcode
2 is a default (log entry 1); that J completes whatever its target is decision D12 (log entry 13). -/
def Obligations.JumpKeepsTheRegion : Prop :=
  (∀ w : Word, w &&& 0xFC000000 = 0x08000000 → decodeInstr w = .ok (.j (addressOf w))) ∧
  ∀ (address : BitVec 26) (s : State), ∃ t, exec (.j address) s = .next t ∧
    t.pc.toNat = s.pc.toNat / 2 ^ 28 * 2 ^ 28 + address.toNat * 4 ∧
    RegsKept s t ∧ CountsOpcode 0x02 s t ∧ MemKept s t ∧ RunStateKept s t

/-! ## Loads and stores -/

/-- R117: in bounds the register gets the word that contains the effective address, whatever its low two bits; out
of bounds the condition is latched and nothing else happens. The numeral 0x23 is a default (log entry 1); the 32-bit
address and the precise fault are decisions D7 and D11 (log entries 15 and 12). -/
def Obligations.LwLoadsTheWord : Prop :=
  (∀ w : Word, w &&& 0xFC000000 = 0x8C000000 → decodeInstr w = .ok (.lw (rsOf w) (rtOf w) (imm16Of w))) ∧
  ∀ (rs rt : RegIdx) (imm16 : BitVec 16) (s : State),
    ((effectiveAddress s rs imm16).toNat / 4 < s.mem.size → ∃ t, exec (.lw rs rt imm16) s = .next t ∧
      t.reg rt = s.mem.word ((effectiveAddress s rs imm16).toNat / 4) ∧
      RegsKeptBut rt s t ∧ t.pc = s.pc + 4 ∧ CountsOpcode 0x23 s t ∧ MemKept s t ∧ RunStateKept s t) ∧
    (s.mem.size ≤ (effectiveAddress s rs imm16).toNat / 4 → ∃ t, exec (.lw rs rt imm16) s = .next t ∧
      OnlyLatched (.outOfBoundsAccess .load (effectiveAddress s rs imm16)) s t)

/-- R118: in bounds the whole word that contains the effective address becomes the register's value and every other
word reads as before; out of bounds the condition is latched and nothing else happens. The numeral 0x2B is a default
(log entry 1); the 32-bit address and the precise fault are decisions D7 and D11 (log entries 15 and 12). -/
def Obligations.SwStoresTheWord : Prop :=
  (∀ w : Word, w &&& 0xFC000000 = 0xAC000000 → decodeInstr w = .ok (.sw (rsOf w) (rtOf w) (imm16Of w))) ∧
  ∀ (rs rt : RegIdx) (imm16 : BitVec 16) (s : State),
    ((effectiveAddress s rs imm16).toNat / 4 < s.mem.size → ∃ t, exec (.sw rs rt imm16) s = .next t ∧
      (∀ a : Word, wordIndex a = wordIndex (effectiveAddress s rs imm16) → t.mem.load a = some (s.reg rt)) ∧
      MemKeptBut (effectiveAddress s rs imm16) s t ∧
      RegsKept s t ∧ t.pc = s.pc + 4 ∧ CountsOpcode 0x2B s t ∧ RunStateKept s t) ∧
    (s.mem.size ≤ (effectiveAddress s rs imm16).toNat / 4 → ∃ t, exec (.sw rs rt imm16) s = .next t ∧
      OnlyLatched (.outOfBoundsAccess .store (effectiveAddress s rs imm16)) s t)

/-- R34: LW and SW at two effective addresses with the same bits 31 to 2 are the same access, to the whole word
`unsigned(ea) div 4`, and neither raises. -/
def Obligations.LowTwoAddressBitsAreIgnored : Prop :=
  ∀ (s : State) (rs rt : RegIdx) (imm16 imm16' : BitVec 16),
    (effectiveAddress s rs imm16).toNat / 4 = (effectiveAddress s rs imm16').toNat / 4 →
    (effectiveAddress s rs imm16).toNat / 4 < s.mem.size →
    exec (.lw rs rt imm16) s = exec (.lw rs rt imm16') s ∧
    exec (.sw rs rt imm16) s = exec (.sw rs rt imm16') s ∧
    ∃ t u, exec (.lw rs rt imm16) s = .next t ∧ t.fault = s.fault ∧
      t.reg rt = s.mem.word ((effectiveAddress s rs imm16).toNat / 4) ∧
      exec (.sw rs rt imm16) s = .next u ∧ u.fault = s.fault ∧
      u.mem.word ((effectiveAddress s rs imm16).toNat / 4) = s.reg rt

/-- R119: a store, then any instructions none of which stores to that word, then a load whose effective address has
the same bits 31 to 2, gives exactly the 32 bits stored. -/
def Obligations.StoreThenLoadGivesTheValue : Prop :=
  ∀ (s t u : State) (rs rt rs' rt' : RegIdx) (imm16 imm16' : BitVec 16) (between : List Instr),
    exec (.sw rs rt imm16) s = .next t →
    (effectiveAddress s rs imm16).toNat / 4 < s.mem.size →
    execAll between t = .next u →
    StoresNoneTo ((effectiveAddress s rs imm16).toNat / 4) between t →
    (effectiveAddress u rs' imm16').toNat / 4 = (effectiveAddress s rs imm16).toNat / 4 →
    ∃ v, exec (.lw rs' rt' imm16') u = .next v ∧ v.reg rt' = s.reg rt

/-- R43: a store to the word at `pc + 4` changes the very next instruction: the step after it runs the stored word. -/
def Obligations.StoreIsSeenByTheNextFetch : Prop :=
  ∀ (s : State) (w : Word) (rs rt : RegIdx) (imm16 : BitVec 16),
    s.isLive → fetchWord s = some w → decodeInstr w = .ok (.sw rs rt imm16) →
    (effectiveAddress s rs imm16).toNat / 4 = (s.pc + 4).toNat / 4 → (s.pc + 4).toNat / 4 < s.mem.size →
    ∃ t, step s = .next t ∧ t.pc = s.pc + 4 ∧ fetchWord t = some (s.reg rt) ∧
      ∀ i, decodeInstr (s.reg rt) = .ok i → step t = exec i t

/-! ## Addresses and the program counter -/

/-- R116 with R3 and R36: the 32-bit effective address is in bounds exactly when the exact signed sum is, and then it
is that sum; so "negative addresses are out of bounds". The 32-bit reading is decision D7 (log entry 15). -/
def Obligations.BoundsCheckAgreesWithExactAddresses : Prop :=
  ∀ (s : State) (rs : RegIdx) (imm16 : BitVec 16), s.mem.size ≤ 2 ^ 28 →
    (s.mem.inBounds (effectiveAddress s rs imm16) = true ↔
      0 ≤ (s.reg rs).toInt + imm16.toInt ∧ (s.reg rs).toInt + imm16.toInt < 4 * (s.mem.size : Int)) ∧
    (s.mem.inBounds (effectiveAddress s rs imm16) = true →
      ((effectiveAddress s rs imm16).toNat : Int) = (s.reg rs).toInt + imm16.toInt)

/-- R14's third derived fact, with R112: from a `pc` the fetch accepted, a branch target is in bounds exactly when the
exact one is, and where the exact one is negative the wrapped one is at least `2^32 - 2^17`. The 32-bit pc and its
wrap are decision D6 (log entry 15). -/
def Obligations.BranchTargetsWrapOnlyOutOfBounds : Prop :=
  ∀ (s : State) (imm16 : BitVec 16), s.mem.size ≤ 2 ^ 28 → s.mem.inBounds s.pc = true →
    (s.mem.inBounds (branchTarget s.pc imm16) = true ↔
      0 ≤ (s.pc.toNat : Int) + 4 + 4 * imm16.toInt ∧
      (s.pc.toNat : Int) + 4 + 4 * imm16.toInt < 4 * (s.mem.size : Int)) ∧
    ((s.pc.toNat : Int) + 4 + 4 * imm16.toInt < 0 → 2 ^ 32 - 2 ^ 17 ≤ (branchTarget s.pc imm16).toNat)

/-- R14's second derived fact: when the fetch succeeded `pc` is below `4 * MEM_WORDS <= 2^30`, `pc + 4` does not
wrap, and with `MEM_WORDS <= 2^26` a jump's target is simply the address times 4. -/
def Obligations.FetchedPcIsSmall : Prop :=
  ∀ (s : State) (w : Word), memWordsWellFormed s.mem.size = true → fetchWord s = some w →
    s.pc.toNat < 4 * s.mem.size ∧ 4 * s.mem.size ≤ 2 ^ 30 ∧
    (s.pc + 4).toNat = s.pc.toNat + 4 ∧
    (s.mem.size ≤ 2 ^ 26 → ∀ address : BitVec 26, (jumpTarget s.pc address).toNat = address.toNat * 4)

/-! ## Whole-machine rules -/

/-- R12: an instruction writes at most the register its row of the table names, and its effect does not depend on a
register the row does not list as read: changing such a register before changes only that register after, or
nothing where the instruction overwrites it. -/
def Obligations.RegistersAreReadAndWrittenAsTheTableSays : Prop :=
  (∀ (i : Instr) (s t : State) (r : RegIdx), exec i s = .next t → t.reg r ≠ s.reg r → destOf i = some r) ∧
  (∀ (i : Instr) (s t : State) (r : RegIdx) (v : Word), r ∉ readsOf i → exec i s = .next t →
    exec i (s.setReg r v) =
      .next (if destOf i = some r ∧ raisesAt i s = none then t else t.setReg r v))

/-- R10: there is no hardwired register: any of the 32 indices, 0 included, can be made to hold any 32-bit value, by
LUI and ORI, and a later read returns what was written, every other register keeping its own. -/
def Obligations.EveryRegisterCanHoldEveryValue : Prop :=
  ∀ (r : RegIdx) (v : Word) (s : State),
    ∃ t, execAll [.lui 0 r (v.extractLsb' 16 16), .ori r r (v.extractLsb' 0 16)] s = .next t ∧
      t.reg r = v ∧ RegsKeptBut r s t

/-- R62: the fields an instruction ignores make no difference. -/
def Obligations.IgnoredFieldsMakeNoDifference : Prop :=
  ∀ (i : Instr) (s : State), exec i s = exec (clearIgnored i) s

/-- R79: `running` becomes 0 by HALT alone, and nothing else ends a run but a fault: every live state has a step,
whatever the number of instructions already executed. -/
def Obligations.OnlyHaltStopsRunning : Prop :=
  ∀ s : State, s.isLive → ∃ t, step s = .next t ∧
    (t.running = false ↔
      ∃ w rs rt rd shamt, fetchWord s = some w ∧ decodeInstr w = .ok (.halt rs rt rd shamt))

/-- R77, R16: a step that raises nothing increments exactly the entry of the instruction it executed, by exactly 1;
a step that raises counts nothing. That HALT counts is decision D14 (log entry 14), that a step which raises
OutOfBoundsAccess does not is D11 (log entry 12). -/
def Obligations.EveryStepCountsItsInstruction : Prop :=
  ∀ s t : State, step s = .next t →
    (t.fault = .none ∧ ∃ w i, fetchWord s = some w ∧ decodeInstr w = .ok i ∧ Counts (counterOf i) s t) ∨
    (t.fault ≠ .none ∧ CountsNothing s t)

/-- R8, R136, R137: a step that raises changes the latch and nothing else. Its extension to OutOfBoundsAccess is
decision D11 (log entry 12). -/
def Obligations.RaisingIsPrecise : Prop :=
  ∀ s t : State, step s = .next t → t.fault ≠ .none → t = { s with fault := t.fault }

/-- R134, R135: what each step raises, in the order fetch, dispatch, data access; at most one condition, and none for
the sixteen instructions that make no data access. The latch is decision D10 (log entry 6). -/
def Obligations.ConditionsAreRaisedInOrder : Prop :=
  ∀ s t : State, step s = .next t →
    t.fault =
      match fetchWord s with
      | none => .outOfBoundsAccess .fetch s.pc
      | some w =>
        match decodeInstr w with
        | .error u => .unsupportedOperation u.fmt u.code
        | .ok i => (raisesAt i s).getD .none

/-- R19, R38: memory is "written only by SW": where a byte address reads differently after a step, the step ran a SW
whose effective address lies in that word, and it reads the stored register. -/
def Obligations.MemoryChangesOnlyByStores : Prop :=
  ∀ (s t : State) (a : Word), step s = .next t → t.mem.load a ≠ s.mem.load a →
    ∃ w rs rt imm16, fetchWord s = some w ∧ decodeInstr w = .ok (.sw rs rt imm16) ∧
      wordIndex a = wordIndex (effectiveAddress s rs imm16) ∧ t.mem.load a = some (s.reg rt)

/-! ## Reset and stopping -/

/-- R24, R150, R151 for every image: asserting reset gives, whatever the state was, every register 0, `pc` 0,
`running` 1, every counter 0, `mem[i] = IMAGE[i]`, and no fault. (The register values are decision D4, log entry 11;
the reset input is D3, log entry 16; that an image of any length sets the memory's size is the model's choice, log
entry 20.) -/
def Obligations.ResetGivesTheResetState : Prop :=
  ∀ (image : List Word) (s t : State), clock (some image) s = t →
    (∀ r, t.reg r = 0) ∧ t.pc = 0 ∧ t.running = true ∧
    (∀ f, t.functCount f = 0) ∧ (∀ o, t.opcodeCount o = 0) ∧
    t.mem.size = image.length ∧ (∀ (i : Nat) (h : i < image.length), t.mem.word i = image[i]) ∧ t.fault = .none

/-- The model's reset state is the boot of 1024 words of 0 (log entries 3 and 4, DESIGN CHOICE). -/
def Obligations.ResetIsTheBootOfTheZeroImage : Prop :=
  State.reset = State.boot (List.replicate 1024 0)

/-- The invariant holds at the model's reset state, whose 1024 words of 0 are the model's choice (log entries 3 and 4,
DESIGN CHOICE). -/
def Obligations.ResetStateIsGood : Prop := Inv State.reset

/-- The invariant holds at the boot of every admitted image. -/
def Obligations.BootStateIsGood : Prop :=
  ∀ image : List Word, imageWellFormed image = true → Inv (State.boot image)

/-- Every step keeps the invariant: canonical memory of an admitted size, `pc` a multiple of 4 (R14), only the 18
live counters nonzero (R16), and a stopped machine that still shows why it stopped (R80, R81, R136). -/
def Obligations.StepKeepsGoodStates : Prop :=
  ∀ s t : State, Inv s → step s = .next t → Inv t ∧ t.mem.size = s.mem.size

/-- Every state a run from any admitted image reaches is good, and MEM_WORDS never changes. -/
def Obligations.ReachableStatesAreGood : Prop :=
  ∀ (image : List Word) (k : Nat) (t : State), imageWellFormed image = true →
    Host.Core.run Sys2Proof.core k (State.boot image) = .next t → Inv t ∧ t.mem.size = image.length

/-- R142, R158: the number of steps of a run from any image is the sum of the counters, plus one for a faulting
step. That HALT counts is decision D14 (log entry 14), that a step which raises OutOfBoundsAccess does not is D11
(log entry 12). -/
def Obligations.StepsOfARunAreTheSumOfTheCounters : Prop :=
  ∀ (image : List Word) (k : Nat) (t : State),
    Host.Core.run Sys2Proof.core k (State.boot image) = .next t → k = t.executed + faultStep t

/-- R81: a run ends at most once, so "the hardware first reaches a stopped state" names one state. What ends a run is
decision D22 (log entry 19), that nothing follows a stop is D15 (log entry 7). -/
def Obligations.RunsEndAtMostOnce : Prop :=
  ∀ (s t t' : State) (k k' : Nat), RunEnds s k t → RunEnds s k' t' → k = k' ∧ t = t'

/-- R74, R80, R101, R138: a stopped machine holds all of its state for ever; only reset leaves it. That a stopped
machine takes no step is decision D15 (log entry 7). -/
def Obligations.StoppedMachineHoldsItsState : Prop :=
  ∀ (s : State) (k : Nat), s.isStopped → clockRun k s = s

/-! ## The host's view -/

/-- R133, the table row by row: `fault_valid`, `fault_cause` and `fault_info` of no fault, of UnsupportedOperation
(format in bits 7:6, code in bits 5:0, other bits 0) and of the three kinds of OutOfBoundsAccess (the byte address);
no other latch has `fault_valid = 0` or cause 0; and cause and info together determine the latch. The numbers are
decision D10 (log entry 6). -/
def Obligations.FaultPortDeterminesTheLatch : Prop :=
  (faultValid .none = false ∧ faultCause .none = 0 ∧ faultInfo .none = 0) ∧
  (∀ (fmt : Format) (code : Code),
    faultValid (.unsupportedOperation fmt code) = true ∧ faultCause (.unsupportedOperation fmt code) = 1 ∧
    (faultInfo (.unsupportedOperation fmt code)).toNat =
      (match fmt with | .r => 0 | .i => 1 | .j => 2) * 64 + code.toNat) ∧
  (∀ (kind : AccessKind) (addr : Word),
    faultValid (.outOfBoundsAccess kind addr) = true ∧
    faultCause (.outOfBoundsAccess kind addr) = (match kind with | .fetch => 2 | .load => 3 | .store => 4) ∧
    faultInfo (.outOfBoundsAccess kind addr) = addr) ∧
  (∀ f : FaultLatch, (faultValid f = false ↔ f = .none) ∧ (faultCause f = 0 ↔ f = .none)) ∧
  (∀ f g : FaultLatch, faultCause f = faultCause g → faultInfo f = faultInfo g → f = g)

/-- R147: the memory read-out is "all memory words whose value is nonzero, paired with their byte address". -/
def Obligations.MemoryReportIsTheNonzeroWords : Prop :=
  ∀ (s : State), s.mem.wf → ∀ (a : Nat) (v : Word),
    (a, v) ∈ memoryReport s ↔ v ≠ 0 ∧ ∃ i, i < s.mem.size ∧ a = 4 * i ∧ s.mem.word i = v

/-- The canonical form is canonical: two memories of one size with the same words are equal data (log entry 5). -/
def Obligations.EqualWordsAreEqualMemories : Prop :=
  ∀ m m' : Memory, m.wf → m'.wf → m.size = m'.size → (∀ i, i < m.size → m.word i = m'.word i) → m = m'

/-! ## The counters, step by step -/

/-- R142, R158 as a step lemma, from every state: a step adds exactly 1 to the sum of all counters plus the faulting
step. That HALT counts is decision D14 (log entry 14), that a step which raises OutOfBoundsAccess does not is D11
(log entry 12). -/
def Obligations.EveryStepAddsOneToTheSumOfTheCounters : Prop :=
  ∀ s t : State, step s = .next t → t.executed + faultStep t = s.executed + faultStep s + 1
end

