-- ==== Sys2Proof/Laws/Decode.lean ====
section
/-! SUPPORT. The fields of a word in integers, the packed words, and the two masks of the opcode table. -/

namespace Sys2Proof

/-! ## Fields as integers -/

theorem opcodeOf_toNat (w : Word) : (opcodeOf w).toNat = w.toNat / 2 ^ 26 := by
  have := w.isLt
  simp only [opcodeOf, BitVec.extractLsb'_toNat, Nat.shiftRight_eq_div_pow]
  omega

theorem rsOf_toNat (w : Word) : (rsOf w).toNat = w.toNat / 2 ^ 21 % 2 ^ 5 := by
  simp only [rsOf, BitVec.extractLsb'_toNat, Nat.shiftRight_eq_div_pow]

theorem rtOf_toNat (w : Word) : (rtOf w).toNat = w.toNat / 2 ^ 16 % 2 ^ 5 := by
  simp only [rtOf, BitVec.extractLsb'_toNat, Nat.shiftRight_eq_div_pow]

theorem rdOf_toNat (w : Word) : (rdOf w).toNat = w.toNat / 2 ^ 11 % 2 ^ 5 := by
  simp only [rdOf, BitVec.extractLsb'_toNat, Nat.shiftRight_eq_div_pow]

theorem shamtOf_toNat (w : Word) : (shamtOf w).toNat = w.toNat / 2 ^ 6 % 2 ^ 5 := by
  simp only [shamtOf, BitVec.extractLsb'_toNat, Nat.shiftRight_eq_div_pow]

theorem functOf_toNat (w : Word) : (functOf w).toNat = w.toNat % 2 ^ 6 := by
  simp [functOf, BitVec.extractLsb'_toNat]

theorem imm16Of_toNat (w : Word) : (imm16Of w).toNat = w.toNat % 2 ^ 16 := by
  simp [imm16Of, BitVec.extractLsb'_toNat]

theorem addressOf_toNat (w : Word) : (addressOf w).toNat = w.toNat % 2 ^ 26 := by
  simp [addressOf, BitVec.extractLsb'_toNat]

/-! ## The immediate (R54, R72) -/

/-- The raw field is the low 16 bits of the extended immediate. -/
@[simp] theorem rawImmediate_extendImmediate (imm16 : BitVec 16) :
    rawImmediate (extendImmediate imm16) = imm16 := by
  refine BitVec.eq_of_getLsbD_eq fun k hk => ?_
  simp only [rawImmediate, extendImmediate, BitVec.getLsbD_extractLsb', BitVec.getLsbD_signExtend, Nat.zero_add]
  simp [hk, show k < 32 by omega]

/-- The signed reading of the extended immediate is that of the field. -/
@[simp] theorem extendImmediate_toInt (imm16 : BitVec 16) : (extendImmediate imm16).toInt = imm16.toInt :=
  BitVec.toInt_signExtend_of_le (by omega)

/-! ## Packed words as integers (R66) -/

theorem append_toNat {m n : Nat} (x : BitVec m) (y : BitVec n) :
    (x ++ y).toNat = x.toNat * 2 ^ n + y.toNat := by
  rw [BitVec.toNat_append, ← Nat.shiftLeft_add_eq_or_of_lt y.isLt, Nat.shiftLeft_eq]

theorem packR_toNat (op : Code) (rs rt rd shamt : BitVec 5) (funct : Code) :
    (packR op rs rt rd shamt funct).toNat =
      op.toNat * 2 ^ 26 + rs.toNat * 2 ^ 21 + rt.toNat * 2 ^ 16 + rd.toNat * 2 ^ 11 + shamt.toNat * 2 ^ 6 +
        funct.toNat := by
  simp only [packR, append_toNat]
  omega

theorem packI_toNat (op : Code) (rs rt : RegIdx) (imm16 : BitVec 16) :
    (packI op rs rt imm16).toNat =
      op.toNat * 2 ^ 26 + rs.toNat * 2 ^ 21 + rt.toNat * 2 ^ 16 + imm16.toNat := by
  simp only [packI, append_toNat]
  omega

theorem packJ_toNat (op : Code) (address : BitVec 26) :
    (packJ op address).toNat = op.toNat * 2 ^ 26 + address.toNat := by
  simp only [packJ, append_toNat]

/-- A word is its R-format fields, packed. -/
theorem packR_fields (w : Word) :
    packR (opcodeOf w) (rsOf w) (rtOf w) (rdOf w) (shamtOf w) (functOf w) = w := by
  have := w.isLt
  refine BitVec.eq_of_toNat_eq ?_
  simp only [packR_toNat, opcodeOf_toNat, rsOf_toNat, rtOf_toNat, rdOf_toNat, shamtOf_toNat, functOf_toNat]
  omega

/-- A word is its I-format fields, packed. -/
theorem packI_fields (w : Word) : packI (opcodeOf w) (rsOf w) (rtOf w) (imm16Of w) = w := by
  have := w.isLt
  refine BitVec.eq_of_toNat_eq ?_
  simp only [packI_toNat, opcodeOf_toNat, rsOf_toNat, rtOf_toNat, imm16Of_toNat]
  omega

/-- A word is its J-format fields, packed. -/
theorem packJ_fields (w : Word) : packJ (opcodeOf w) (addressOf w) = w := by
  have := w.isLt
  refine BitVec.eq_of_toNat_eq ?_
  simp only [packJ_toNat, opcodeOf_toNat, addressOf_toNat]
  omega

/-! ## The fields of a packed word -/

section
variable (op : Code) (rs rt rd shamt : BitVec 5) (funct : Code) (imm16 : BitVec 16) (address : BitVec 26)

@[simp] theorem opcodeOf_packR : opcodeOf (packR op rs rt rd shamt funct) = op := by
  have := rs.isLt; have := rt.isLt; have := rd.isLt; have := shamt.isLt; have := funct.isLt
  refine BitVec.eq_of_toNat_eq ?_
  rw [opcodeOf_toNat, packR_toNat]
  omega

@[simp] theorem rsOf_packR : rsOf (packR op rs rt rd shamt funct) = rs := by
  have := rs.isLt; have := rt.isLt; have := rd.isLt; have := shamt.isLt; have := funct.isLt
  refine BitVec.eq_of_toNat_eq ?_
  rw [rsOf_toNat, packR_toNat]
  omega

@[simp] theorem rtOf_packR : rtOf (packR op rs rt rd shamt funct) = rt := by
  have := rs.isLt; have := rt.isLt; have := rd.isLt; have := shamt.isLt; have := funct.isLt
  refine BitVec.eq_of_toNat_eq ?_
  rw [rtOf_toNat, packR_toNat]
  omega

@[simp] theorem rdOf_packR : rdOf (packR op rs rt rd shamt funct) = rd := by
  have := rs.isLt; have := rt.isLt; have := rd.isLt; have := shamt.isLt; have := funct.isLt
  refine BitVec.eq_of_toNat_eq ?_
  rw [rdOf_toNat, packR_toNat]
  omega

@[simp] theorem shamtOf_packR : shamtOf (packR op rs rt rd shamt funct) = shamt := by
  have := rs.isLt; have := rt.isLt; have := rd.isLt; have := shamt.isLt; have := funct.isLt
  refine BitVec.eq_of_toNat_eq ?_
  rw [shamtOf_toNat, packR_toNat]
  omega

@[simp] theorem functOf_packR : functOf (packR op rs rt rd shamt funct) = funct := by
  have := rs.isLt; have := rt.isLt; have := rd.isLt; have := shamt.isLt; have := funct.isLt
  refine BitVec.eq_of_toNat_eq ?_
  rw [functOf_toNat, packR_toNat]
  omega

@[simp] theorem opcodeOf_packI : opcodeOf (packI op rs rt imm16) = op := by
  have := rs.isLt; have := rt.isLt; have := imm16.isLt
  refine BitVec.eq_of_toNat_eq ?_
  rw [opcodeOf_toNat, packI_toNat]
  omega

@[simp] theorem rsOf_packI : rsOf (packI op rs rt imm16) = rs := by
  have := rs.isLt; have := rt.isLt; have := imm16.isLt
  refine BitVec.eq_of_toNat_eq ?_
  rw [rsOf_toNat, packI_toNat]
  omega

@[simp] theorem rtOf_packI : rtOf (packI op rs rt imm16) = rt := by
  have := rs.isLt; have := rt.isLt; have := imm16.isLt
  refine BitVec.eq_of_toNat_eq ?_
  rw [rtOf_toNat, packI_toNat]
  omega

@[simp] theorem imm16Of_packI : imm16Of (packI op rs rt imm16) = imm16 := by
  have := rs.isLt; have := rt.isLt; have := imm16.isLt
  refine BitVec.eq_of_toNat_eq ?_
  rw [imm16Of_toNat, packI_toNat]
  omega

@[simp] theorem opcodeOf_packJ : opcodeOf (packJ op address) = op := by
  have := address.isLt
  refine BitVec.eq_of_toNat_eq ?_
  rw [opcodeOf_toNat, packJ_toNat]
  omega

@[simp] theorem addressOf_packJ : addressOf (packJ op address) = address := by
  have := address.isLt
  refine BitVec.eq_of_toNat_eq ?_
  rw [addressOf_toNat, packJ_toNat]
  omega

end

/-! ## The format -/

theorem formatOf_eq_r : ∀ {op : Code}, formatOf op = .r ↔ op = 0 := by decide

theorem formatOf_eq_j : ∀ {op : Code}, formatOf op = .j ↔ op = 2 ∨ op = 3 := by decide

theorem formatOf_eq_i : ∀ {op : Code}, formatOf op = .i ↔ op ≠ 0 ∧ op ≠ 2 ∧ op ≠ 3 := by decide

theorem decode_of_r {w : Word} (h : formatOf (opcodeOf w) = .r) :
    decode w = .r (opcodeOf w) (rsOf w) (rtOf w) (rdOf w) (shamtOf w) (functOf w) := by
  rw [decode, h]

theorem decode_of_i {w : Word} (h : formatOf (opcodeOf w) = .i) :
    decode w = .i (opcodeOf w) (rsOf w) (rtOf w) (extendImmediate (imm16Of w)) := by
  rw [decode, h]

theorem decode_of_j {w : Word} (h : formatOf (opcodeOf w) = .j) :
    decode w = .j (opcodeOf w) (addressOf w) := by
  rw [decode, h]

/-- Decode and dispatch by the word's own fields, one case a format. -/
theorem decodeWith_eq (n : Numerals) (w : Word) :
    decodeWith n w =
      match formatOf (opcodeOf w) with
      | .r => dispatchR n (rsOf w) (rtOf w) (rdOf w) (shamtOf w) (functOf w)
      | .i => dispatchI n (opcodeOf w) (rsOf w) (rtOf w) (imm16Of w)
      | .j => dispatchJ n (opcodeOf w) (addressOf w) := by
  unfold decodeWith
  cases h : formatOf (opcodeOf w)
  · rw [decode_of_r h]; rfl
  · rw [decode_of_i h]; simp [dispatch]
  · rw [decode_of_j h]; rfl

/-! ## The masks of the opcode table (R62) -/

/-- The I- and J-format mask keeps the opcode. -/
theorem and_maskI (w : Word) : w &&& 0xFC000000 = opcodeOf w ++ (0 : BitVec 26) := by
  refine BitVec.eq_of_getLsbD_eq fun k hk => ?_
  simp only [BitVec.getLsbD_and, BitVec.getLsbD_append, opcodeOf, BitVec.getLsbD_extractLsb']
  by_cases h : k < 26
  · simp only [h, if_true]
    interval_cases k <;> simp
  · simp only [h, if_false, show 26 + (k - 26) = k by omega]
    interval_cases k <;> simp_all

/-- The R-format mask keeps the opcode and the funct. -/
theorem and_maskR (w : Word) : w &&& 0xFC00003F = opcodeOf w ++ (0 : BitVec 20) ++ functOf w := by
  refine BitVec.eq_of_getLsbD_eq fun k hk => ?_
  simp only [BitVec.getLsbD_and, BitVec.getLsbD_append, opcodeOf, functOf, BitVec.getLsbD_extractLsb',
    Nat.zero_add]
  by_cases h : k < 6
  · simp only [h, if_true]
    interval_cases k <;> simp
  · by_cases h' : k - 6 < 20
    · have hlo : 6 ≤ k := by omega
      have hhi : k < 26 := by omega
      simp only [h, h', if_false, if_true]
      clear h h' hk
      interval_cases k <;> simp
    · have hlo : 26 ≤ k := by omega
      simp only [h, h', if_false]
      clear h h'
      interval_cases k <;> simp_all

/-- A word matches an I- or J-format row exactly when its opcode is the row's. -/
theorem and_maskI_eq (w : Word) (op : Code) : w &&& 0xFC000000 = op ++ (0 : BitVec 26) ↔ opcodeOf w = op := by
  rw [and_maskI]
  constructor
  · intro h
    have := congrArg BitVec.toNat h
    simp only [append_toNat] at this
    exact BitVec.eq_of_toNat_eq (by omega)
  · rintro rfl; rfl

/-- A word matches an R-format row exactly when its opcode and funct are the row's. -/
theorem and_maskR_eq (w : Word) (op funct : Code) :
    w &&& 0xFC00003F = op ++ (0 : BitVec 20) ++ funct ↔ opcodeOf w = op ∧ functOf w = funct := by
  rw [and_maskR]
  constructor
  · intro h
    have := congrArg BitVec.toNat h
    simp only [append_toNat] at this
    have := (functOf w).isLt; have := funct.isLt
    have hz : (0 : BitVec 20).toNat = 0 := rfl
    exact ⟨BitVec.eq_of_toNat_eq (by omega), BitVec.eq_of_toNat_eq (by omega)⟩
  · rintro ⟨rfl, rfl⟩; rfl

end Sys2Proof
end

