-- ==== Sys2Proof/Laws/State.lean ====
section
/-! SUPPORT. One lemma per field per update of the state, and the laws of the register and counter accessors. -/

namespace Sys2Proof.Machine

/-! ## setReg -/

@[simp] theorem State.setReg_pc (s : State) (r : RegIdx) (v : Word) : (s.setReg r v).pc = s.pc := rfl
@[simp] theorem State.setReg_running (s : State) (r : RegIdx) (v : Word) : (s.setReg r v).running = s.running := rfl
@[simp] theorem State.setReg_countFunct (s : State) (r : RegIdx) (v : Word) : (s.setReg r v).countFunct = s.countFunct := rfl
@[simp] theorem State.setReg_countOpcode (s : State) (r : RegIdx) (v : Word) : (s.setReg r v).countOpcode = s.countOpcode := rfl
@[simp] theorem State.setReg_mem (s : State) (r : RegIdx) (v : Word) : (s.setReg r v).mem = s.mem := rfl
@[simp] theorem State.setReg_fault (s : State) (r : RegIdx) (v : Word) : (s.setReg r v).fault = s.fault := rfl
@[simp] theorem State.setReg_functCount (s : State) (r : RegIdx) (v : Word) (g : Code) : (s.setReg r v).functCount g = s.functCount g := rfl
@[simp] theorem State.setReg_opcodeCount (s : State) (r : RegIdx) (v : Word) (p : Code) : (s.setReg r v).opcodeCount p = s.opcodeCount p := rfl

/-! ## setPc -/

@[simp] theorem State.setPc_x (s : State) (v : Word) : (s.setPc v).x = s.x := rfl
@[simp] theorem State.setPc_pc (s : State) (v : Word) : (s.setPc v).pc = v := rfl
@[simp] theorem State.setPc_running (s : State) (v : Word) : (s.setPc v).running = s.running := rfl
@[simp] theorem State.setPc_countFunct (s : State) (v : Word) : (s.setPc v).countFunct = s.countFunct := rfl
@[simp] theorem State.setPc_countOpcode (s : State) (v : Word) : (s.setPc v).countOpcode = s.countOpcode := rfl
@[simp] theorem State.setPc_mem (s : State) (v : Word) : (s.setPc v).mem = s.mem := rfl
@[simp] theorem State.setPc_fault (s : State) (v : Word) : (s.setPc v).fault = s.fault := rfl
@[simp] theorem State.setPc_reg (s : State) (v : Word) (q : RegIdx) : (s.setPc v).reg q = s.reg q := rfl
@[simp] theorem State.setPc_functCount (s : State) (v : Word) (g : Code) : (s.setPc v).functCount g = s.functCount g := rfl
@[simp] theorem State.setPc_opcodeCount (s : State) (v : Word) (p : Code) : (s.setPc v).opcodeCount p = s.opcodeCount p := rfl

/-! ## advancePc -/

@[simp] theorem State.advancePc_x (s : State) : s.advancePc.x = s.x := rfl
@[simp] theorem State.advancePc_pc (s : State) : s.advancePc.pc = s.pc + 4 := rfl
@[simp] theorem State.advancePc_running (s : State) : s.advancePc.running = s.running := rfl
@[simp] theorem State.advancePc_countFunct (s : State) : s.advancePc.countFunct = s.countFunct := rfl
@[simp] theorem State.advancePc_countOpcode (s : State) : s.advancePc.countOpcode = s.countOpcode := rfl
@[simp] theorem State.advancePc_mem (s : State) : s.advancePc.mem = s.mem := rfl
@[simp] theorem State.advancePc_fault (s : State) : s.advancePc.fault = s.fault := rfl
@[simp] theorem State.advancePc_reg (s : State) (q : RegIdx) : s.advancePc.reg q = s.reg q := rfl
@[simp] theorem State.advancePc_functCount (s : State) (g : Code) : s.advancePc.functCount g = s.functCount g := rfl
@[simp] theorem State.advancePc_opcodeCount (s : State) (p : Code) : s.advancePc.opcodeCount p = s.opcodeCount p := rfl

/-! ## tickFunct -/

@[simp] theorem State.tickFunct_x (s : State) (f : Code) : (s.tickFunct f).x = s.x := rfl
@[simp] theorem State.tickFunct_pc (s : State) (f : Code) : (s.tickFunct f).pc = s.pc := rfl
@[simp] theorem State.tickFunct_running (s : State) (f : Code) : (s.tickFunct f).running = s.running := rfl
@[simp] theorem State.tickFunct_countOpcode (s : State) (f : Code) : (s.tickFunct f).countOpcode = s.countOpcode := rfl
@[simp] theorem State.tickFunct_mem (s : State) (f : Code) : (s.tickFunct f).mem = s.mem := rfl
@[simp] theorem State.tickFunct_fault (s : State) (f : Code) : (s.tickFunct f).fault = s.fault := rfl
@[simp] theorem State.tickFunct_reg (s : State) (f : Code) (q : RegIdx) : (s.tickFunct f).reg q = s.reg q := rfl
@[simp] theorem State.tickFunct_opcodeCount (s : State) (f : Code) (p : Code) : (s.tickFunct f).opcodeCount p = s.opcodeCount p := rfl

/-! ## tickOpcode -/

@[simp] theorem State.tickOpcode_x (s : State) (o : Code) : (s.tickOpcode o).x = s.x := rfl
@[simp] theorem State.tickOpcode_pc (s : State) (o : Code) : (s.tickOpcode o).pc = s.pc := rfl
@[simp] theorem State.tickOpcode_running (s : State) (o : Code) : (s.tickOpcode o).running = s.running := rfl
@[simp] theorem State.tickOpcode_countFunct (s : State) (o : Code) : (s.tickOpcode o).countFunct = s.countFunct := rfl
@[simp] theorem State.tickOpcode_mem (s : State) (o : Code) : (s.tickOpcode o).mem = s.mem := rfl
@[simp] theorem State.tickOpcode_fault (s : State) (o : Code) : (s.tickOpcode o).fault = s.fault := rfl
@[simp] theorem State.tickOpcode_reg (s : State) (o : Code) (q : RegIdx) : (s.tickOpcode o).reg q = s.reg q := rfl
@[simp] theorem State.tickOpcode_functCount (s : State) (o : Code) (g : Code) : (s.tickOpcode o).functCount g = s.functCount g := rfl

/-! ## clearRunning -/

@[simp] theorem State.clearRunning_x (s : State) : s.clearRunning.x = s.x := rfl
@[simp] theorem State.clearRunning_pc (s : State) : s.clearRunning.pc = s.pc := rfl
@[simp] theorem State.clearRunning_running (s : State) : s.clearRunning.running = false := rfl
@[simp] theorem State.clearRunning_countFunct (s : State) : s.clearRunning.countFunct = s.countFunct := rfl
@[simp] theorem State.clearRunning_countOpcode (s : State) : s.clearRunning.countOpcode = s.countOpcode := rfl
@[simp] theorem State.clearRunning_mem (s : State) : s.clearRunning.mem = s.mem := rfl
@[simp] theorem State.clearRunning_fault (s : State) : s.clearRunning.fault = s.fault := rfl
@[simp] theorem State.clearRunning_reg (s : State) (q : RegIdx) : s.clearRunning.reg q = s.reg q := rfl
@[simp] theorem State.clearRunning_functCount (s : State) (g : Code) : s.clearRunning.functCount g = s.functCount g := rfl
@[simp] theorem State.clearRunning_opcodeCount (s : State) (p : Code) : s.clearRunning.opcodeCount p = s.opcodeCount p := rfl

/-! ## setFault -/

@[simp] theorem State.setFault_x (s : State) (c : FaultLatch) : (s.setFault c).x = s.x := rfl
@[simp] theorem State.setFault_pc (s : State) (c : FaultLatch) : (s.setFault c).pc = s.pc := rfl
@[simp] theorem State.setFault_running (s : State) (c : FaultLatch) : (s.setFault c).running = s.running := rfl
@[simp] theorem State.setFault_countFunct (s : State) (c : FaultLatch) : (s.setFault c).countFunct = s.countFunct := rfl
@[simp] theorem State.setFault_countOpcode (s : State) (c : FaultLatch) : (s.setFault c).countOpcode = s.countOpcode := rfl
@[simp] theorem State.setFault_mem (s : State) (c : FaultLatch) : (s.setFault c).mem = s.mem := rfl
@[simp] theorem State.setFault_fault (s : State) (c : FaultLatch) : (s.setFault c).fault = c := rfl
@[simp] theorem State.setFault_reg (s : State) (c : FaultLatch) (q : RegIdx) : (s.setFault c).reg q = s.reg q := rfl
@[simp] theorem State.setFault_functCount (s : State) (c : FaultLatch) (g : Code) : (s.setFault c).functCount g = s.functCount g := rfl
@[simp] theorem State.setFault_opcodeCount (s : State) (c : FaultLatch) (p : Code) : (s.setFault c).opcodeCount p = s.opcodeCount p := rfl

/-! ## setMem -/

@[simp] theorem State.setMem_x (s : State) (m : Memory) : (s.setMem m).x = s.x := rfl
@[simp] theorem State.setMem_pc (s : State) (m : Memory) : (s.setMem m).pc = s.pc := rfl
@[simp] theorem State.setMem_running (s : State) (m : Memory) : (s.setMem m).running = s.running := rfl
@[simp] theorem State.setMem_countFunct (s : State) (m : Memory) : (s.setMem m).countFunct = s.countFunct := rfl
@[simp] theorem State.setMem_countOpcode (s : State) (m : Memory) : (s.setMem m).countOpcode = s.countOpcode := rfl
@[simp] theorem State.setMem_mem (s : State) (m : Memory) : (s.setMem m).mem = m := rfl
@[simp] theorem State.setMem_fault (s : State) (m : Memory) : (s.setMem m).fault = s.fault := rfl
@[simp] theorem State.setMem_reg (s : State) (m : Memory) (q : RegIdx) : (s.setMem m).reg q = s.reg q := rfl
@[simp] theorem State.setMem_functCount (s : State) (m : Memory) (g : Code) : (s.setMem m).functCount g = s.functCount g := rfl
@[simp] theorem State.setMem_opcodeCount (s : State) (m : Memory) (p : Code) : (s.setMem m).opcodeCount p = s.opcodeCount p := rfl

/-! ## The accessors that read what an update wrote -/

/-- A register read after a register write. -/
@[simp] theorem State.setReg_reg (s : State) (r q : RegIdx) (v : Word) :
    (s.setReg r v).reg q = if q = r then v else s.reg q := by
  simp only [State.reg, State.setReg, Vector.getElem_set, BitVec.toNat_inj]
  exact if_congr eq_comm rfl rfl

/-- A counter entry read after an increment. -/
@[simp] theorem State.tickFunct_functCount (s : State) (f g : Code) :
    (s.tickFunct f).functCount g = s.functCount g + (if g = f then 1 else 0) := by
  simp only [State.functCount, State.tickFunct, Vector.getElem_set, BitVec.toNat_inj]
  by_cases h : f = g
  · subst h; simp
  · simp [h, Ne.symm h]

/-- A counter entry read after an increment. -/
@[simp] theorem State.tickOpcode_opcodeCount (s : State) (o p : Code) :
    (s.tickOpcode o).opcodeCount p = s.opcodeCount p + (if p = o then 1 else 0) := by
  simp only [State.opcodeCount, State.tickOpcode, Vector.getElem_set, BitVec.toNat_inj]
  by_cases h : o = p
  · subst h; simp
  · simp [h, Ne.symm h]

/-- The later of two writes to one register stands. -/
@[simp] theorem State.setReg_setReg (s : State) (r : RegIdx) (v w : Word) :
    (s.setReg r v).setReg r w = s.setReg r w := by
  simp [State.setReg]

/-- Writes to two registers commute. -/
theorem State.setReg_comm (s : State) (r q : RegIdx) (v w : Word) (h : r ≠ q) :
    (s.setReg r v).setReg q w = (s.setReg q w).setReg r v := by
  have hn : r.toNat ≠ q.toNat := fun e => h (BitVec.toNat_inj.mp e)
  simp [State.setReg, Vector.set_comm _ _ hn]

end Sys2Proof.Machine
end

