-- ==== Sys2Proof/Laws/Memory.lean ====
section
/-! SUPPORT. What the memory operations do, once: read after write, everything else kept, the canonical form kept. -/

namespace Sys2Proof.Machine

/-! ## Lists of cells -/

theorem lookupWord_insertWord (cells : List (Nat × Word)) (i j : Nat) (v : Word)
    (h : ∀ c ∈ cells, c.1 ≠ i) :
    lookupWord (insertWord cells i v) j = if j = i then v else lookupWord cells j := by
  induction cells with
  | nil => simp [insertWord, lookupWord, eq_comm]
  | cons c rest ih =>
    obtain ⟨k, w⟩ := c
    have hk : k ≠ i := h _ List.mem_cons_self
    have ih := ih fun c hc => h c (List.mem_cons_of_mem _ hc)
    by_cases hlt : i < k
    · simp [insertWord, hlt, lookupWord, eq_comm]
    · by_cases hkj : k = j
      · subst hkj; simp [insertWord, hlt, lookupWord, hk]
      · simp [insertWord, hlt, lookupWord, hkj, ih]

theorem lookupWord_eraseWord (cells : List (Nat × Word)) (i j : Nat) :
    lookupWord (eraseWord cells i) j = if j = i then 0 else lookupWord cells j := by
  induction cells with
  | nil => simp [eraseWord, lookupWord]
  | cons c rest ih =>
    obtain ⟨k, w⟩ := c
    have ih : lookupWord (rest.filter fun c => c.1 ≠ i) j = _ := ih
    by_cases hk : k = i
    · subst hk
      by_cases hj : j = k
      · subst hj; simp_all [eraseWord]
      · simp_all [eraseWord, lookupWord, Ne.symm hj]
    · by_cases hkj : k = j
      · subst hkj; simp [eraseWord, lookupWord, hk]
      · simp_all [eraseWord, lookupWord]

theorem eraseWord_fst_ne (cells : List (Nat × Word)) (i : Nat) : ∀ c ∈ eraseWord cells i, c.1 ≠ i := by
  simp [eraseWord]

theorem mem_insertWord {cells : List (Nat × Word)} {i : Nat} {v : Word} {c : Nat × Word}
    (h : c ∈ insertWord cells i v) : c = (i, v) ∨ c ∈ cells := by
  induction cells with
  | nil => exact .inl (by simpa [insertWord] using h)
  | cons d rest ih =>
    obtain ⟨k, w⟩ := d
    by_cases hlt : i < k
    · simp only [insertWord, hlt, if_true, List.mem_cons] at h
      simpa using h
    · simp only [insertWord, hlt, if_false, List.mem_cons] at h
      rcases h with h | h
      · exact .inr (h ▸ List.mem_cons_self)
      · exact (ih h).imp id (List.mem_cons_of_mem _)

theorem insertWord_pairwise {cells : List (Nat × Word)} (i : Nat) (v : Word)
    (hs : cells.Pairwise fun a b => a.1 < b.1) (h : ∀ c ∈ cells, c.1 ≠ i) :
    (insertWord cells i v).Pairwise fun a b => a.1 < b.1 := by
  induction cells with
  | nil => simp [insertWord]
  | cons d rest ih =>
    obtain ⟨k, w⟩ := d
    have hk : k ≠ i := h _ List.mem_cons_self
    obtain ⟨hd, hr⟩ := List.pairwise_cons.mp hs
    by_cases hlt : i < k
    · simp only [insertWord, hlt, if_true, List.pairwise_cons]
      refine ⟨fun c hc => ?_, List.pairwise_cons.mp hs⟩
      rcases List.mem_cons.mp hc with rfl | hc
      · exact hlt
      · exact hlt.trans (hd c hc)
    · simp only [insertWord, hlt, if_false, List.pairwise_cons]
      refine ⟨fun c hc => ?_, ih hr fun c hc => h c (List.mem_cons_of_mem _ hc)⟩
      rcases mem_insertWord hc with rfl | hc
      · simp only; omega
      · exact hd c hc

/-! ## Words -/

@[simp] theorem Memory.setWord_size (m : Memory) (i : Nat) (v : Word) : (m.setWord i v).size = m.size := rfl

/-- A word read after a word write, for every list of cells, canonical or not. -/
@[simp] theorem Memory.word_setWord (m : Memory) (i j : Nat) (v : Word) :
    (m.setWord i v).word j = if j = i then v else m.word j := by
  by_cases hv : v = 0
  · subst hv; simp [Memory.setWord, Memory.word, lookupWord_eraseWord]
  · have := lookupWord_insertWord (eraseWord m.cells i) i j v (eraseWord_fst_ne _ _)
    simp only [Memory.setWord, Memory.word, hv, if_false, this, lookupWord_eraseWord]
    split <;> simp_all

/-- A word write inside the array keeps the canonical form. -/
theorem Memory.wf_setWord {m : Memory} (h : m.wf) {i : Nat} (hi : i < m.size) (v : Word) :
    (m.setWord i v).wf := by
  obtain ⟨hs, hc⟩ := h
  have hse : (eraseWord m.cells i).Pairwise fun a b => a.1 < b.1 := hs.filter _
  have hce : ∀ c ∈ eraseWord m.cells i, c.2 ≠ 0 ∧ c.1 < m.size :=
    fun c h => hc c (List.mem_of_mem_filter h)
  by_cases hv : v = 0
  · simpa [Memory.wf, Memory.setWord, hv] using And.intro hse hce
  · simp only [Memory.wf, Memory.setWord, hv, if_false]
    refine ⟨insertWord_pairwise i v hse (eraseWord_fst_ne _ _), fun c h => ?_⟩
    rcases mem_insertWord h with rfl | h
    · exact ⟨hv, hi⟩
    · exact hce c h

/-! ## Accesses at a byte address -/

theorem Memory.inBounds_iff (m : Memory) (a : Word) : m.inBounds a = true ↔ wordIndex a < m.size := by
  simp [Memory.inBounds]

theorem Memory.load_eq_some {m : Memory} {a v : Word} :
    m.load a = some v ↔ wordIndex a < m.size ∧ m.word (wordIndex a) = v := by
  simp [Memory.load, Memory.inBounds]

theorem Memory.load_eq_none {m : Memory} {a : Word} : m.load a = none ↔ m.size ≤ wordIndex a := by
  simp [Memory.load, Memory.inBounds]

/-- Everything a store does: it succeeds exactly in bounds, and then it sets one word. -/
theorem Memory.store_eq_some {m m' : Memory} {a v : Word} :
    m.store a v = some m' ↔ wordIndex a < m.size ∧ m' = m.setWord (wordIndex a) v := by
  simp [Memory.store, Memory.inBounds, eq_comm]

theorem Memory.store_eq_none {m : Memory} {a v : Word} : m.store a v = none ↔ m.size ≤ wordIndex a := by
  simp [Memory.store, Memory.inBounds]

theorem Memory.load_of_lt {m : Memory} {a : Word} (h : wordIndex a < m.size) :
    m.load a = some (m.word (wordIndex a)) := Memory.load_eq_some.mpr ⟨h, rfl⟩

theorem Memory.store_of_lt {m : Memory} {a : Word} (v : Word) (h : wordIndex a < m.size) :
    m.store a v = some (m.setWord (wordIndex a) v) := Memory.store_eq_some.mpr ⟨h, rfl⟩

/-- A read at any byte address after a store: the stored word inside its own word, the old one elsewhere. -/
theorem Memory.load_store {m m' : Memory} {a v : Word} (h : m.store a v = some m') (b : Word) :
    m'.load b = if wordIndex b = wordIndex a then some v else m.load b := by
  obtain ⟨hlt, rfl⟩ := Memory.store_eq_some.mp h
  by_cases hb : wordIndex b = wordIndex a
  · simp [Memory.load, Memory.inBounds, hb, hlt]
  · rw [if_neg hb]
    change (if m.inBounds b = true then some ((m.setWord (wordIndex a) v).word (wordIndex b)) else none) = _
    rw [Memory.word_setWord, if_neg hb, Memory.load]

theorem Memory.store_size {m m' : Memory} {a v : Word} (h : m.store a v = some m') : m'.size = m.size := by
  obtain ⟨-, rfl⟩ := Memory.store_eq_some.mp h; rfl

/-- A store keeps the canonical form. -/
theorem Memory.wf_store {m m' : Memory} (hm : m.wf) {a v : Word} (h : m.store a v = some m') : m'.wf := by
  obtain ⟨hlt, rfl⟩ := Memory.store_eq_some.mp h
  exact Memory.wf_setWord hm hlt v

/-! ## Images -/

theorem cellsFrom_zero (i : Nat) (rest : List Word) : cellsFrom i (0 :: rest) = cellsFrom (i + 1) rest := by
  simp [cellsFrom]

theorem cellsFrom_of_ne (i : Nat) {w : Word} (rest : List Word) (h : w ≠ 0) :
    cellsFrom i (w :: rest) = (i, w) :: cellsFrom (i + 1) rest := if_neg h

theorem cellsFrom_mem {i : Nat} {ws : List Word} {c : Nat × Word} (h : c ∈ cellsFrom i ws) :
    i ≤ c.1 ∧ c.1 < i + ws.length ∧ c.2 ≠ 0 := by
  induction ws generalizing i with
  | nil => simp [cellsFrom] at h
  | cons w rest ih =>
    by_cases hw : w = 0
    · subst hw
      rw [cellsFrom_zero] at h
      have := ih h
      simp only [List.length_cons]; exact ⟨by omega, by omega, this.2.2⟩
    · rw [cellsFrom_of_ne _ _ hw, List.mem_cons] at h
      rcases h with rfl | h
      · exact ⟨Nat.le_refl i, by simp, hw⟩
      · have := ih h
        simp only [List.length_cons]; exact ⟨by omega, by omega, this.2.2⟩

theorem cellsFrom_pairwise (i : Nat) (ws : List Word) :
    (cellsFrom i ws).Pairwise fun a b => a.1 < b.1 := by
  induction ws generalizing i with
  | nil => simp [cellsFrom]
  | cons w rest ih =>
    by_cases hw : w = 0
    · subst hw
      rw [cellsFrom_zero]
      exact ih (i + 1)
    · rw [cellsFrom_of_ne _ _ hw, List.pairwise_cons]
      exact ⟨fun c hc => (cellsFrom_mem hc).1, ih (i + 1)⟩

theorem lookupWord_of_fst_ne {cells : List (Nat × Word)} {j : Nat} (h : ∀ c ∈ cells, c.1 ≠ j) :
    lookupWord cells j = 0 := by
  induction cells with
  | nil => rfl
  | cons c rest ih =>
    obtain ⟨k, w⟩ := c
    have hk : k ≠ j := h _ List.mem_cons_self
    simpa [lookupWord, hk] using ih fun c hc => h c (List.mem_cons_of_mem _ hc)

theorem lookupWord_cellsFrom (i : Nat) (ws : List Word) (j : Nat) (h : j < ws.length) :
    lookupWord (cellsFrom i ws) (i + j) = ws[j] := by
  induction ws generalizing i j with
  | nil => simp at h
  | cons w rest ih =>
    cases j with
    | zero =>
      by_cases hw : w = 0
      · subst hw
        rw [cellsFrom_zero, List.getElem_cons_zero]
        exact lookupWord_of_fst_ne fun c hc => by have := (cellsFrom_mem hc).1; omega
      · simp [cellsFrom_of_ne _ _ hw, lookupWord]
    | succ j =>
      have := ih (i + 1) j (by simpa using h)
      by_cases hw : w = 0
      · subst hw
        rw [cellsFrom_zero]
        simpa [Nat.add_assoc, Nat.add_comm 1] using this
      · rw [cellsFrom_of_ne _ _ hw]
        simpa [lookupWord, Nat.add_assoc, Nat.add_comm 1] using this

/-- The memory of an image is canonical. -/
theorem Memory.wf_ofImage (ws : List Word) : (Memory.ofImage ws).wf :=
  ⟨cellsFrom_pairwise 0 ws, fun _ hc => ⟨(cellsFrom_mem hc).2.2, by
    simpa [Memory.ofImage] using (cellsFrom_mem hc).2.1⟩⟩

/-- `mem[i] = IMAGE[i]`. -/
theorem Memory.word_ofImage (ws : List Word) (i : Nat) (h : i < ws.length) :
    (Memory.ofImage ws).word i = ws[i] := by
  simpa [Memory.word, Memory.ofImage] using lookupWord_cellsFrom 0 ws i h

/-- The memory at reset is canonical. -/
theorem Memory.wf_reset : State.reset.mem.wf := ⟨List.Pairwise.nil, by simp [State.reset, State.initial]⟩

/-- Storing where the next fetch reads keeps the canonical form. -/
theorem putFetchWord_wf (s : State) (w : Word) (h : s.mem.wf) : (putFetchWord s w).mem.wf := by
  unfold putFetchWord
  cases hs : s.mem.store s.pc w with
  | none => exact h
  | some m => exact Memory.wf_store h hs

/-- The fetch after `putFetchWord` reads that word, where `pc` is in bounds. -/
theorem fetchWord_putFetchWord (s : State) (w : Word) (h : wordIndex s.pc < s.mem.size) :
    fetchWord (putFetchWord s w) = some w := by
  have hs := Memory.store_of_lt w h
  unfold putFetchWord
  rw [hs]
  simpa [fetchWord] using Memory.load_store hs s.pc

end Sys2Proof.Machine
end

