-- ==== Sys2Proof/Laws/Operands.lean ====
section
/-! SUPPORT. What each operand form and comparison is, in integers. -/

namespace Sys2Proof.Machine

/-- The unsigned reading of a signed reading, modulo 2^32. -/
theorem toInt_emod (v : Word) : v.toInt % 2 ^ 32 = (v.toNat : Int) := by
  have := v.isLt
  rw [BitVec.toInt_eq_toNat_cond]
  split <;> omega

@[simp] theorem sext32_toInt (imm16 : BitVec 16) : (sext32 imm16).toInt = imm16.toInt :=
  extendImmediate_toInt imm16

/-- Re-masking undoes the sign extension: ANDI, ORI and LUI see the zero-extended field (R55). -/
theorem zext32_eq_setWidth (imm16 : BitVec 16) : zext32 imm16 = imm16.setWidth 32 := by
  refine BitVec.eq_of_getLsbD_eq fun k hk => ?_
  have hm : (0x0000FFFF : Word).getLsbD k = decide (k < 16) := by
    interval_cases k <;> rfl
  simp only [zext32, extendImmediate, BitVec.getLsbD_and, BitVec.getLsbD_signExtend, BitVec.getLsbD_setWidth, hm]
  by_cases h : k < 16
  · simp [h, hk]
  · simp [h, BitVec.getLsbD_of_ge imm16 k (by omega)]

@[simp] theorem zext32_toNat (imm16 : BitVec 16) : (zext32 imm16).toNat = imm16.toNat := by
  have := imm16.isLt
  rw [zext32_eq_setWidth, BitVec.toNat_setWidth]
  omega

/-- A bit of the zero-extended immediate. -/
theorem zext32_getLsbD (imm16 : BitVec 16) (k : Nat) (hk : k < 32) :
    (zext32 imm16).getLsbD k = (decide (k < 16) && imm16.getLsbD k) := by
  rw [zext32_eq_setWidth, BitVec.getLsbD_setWidth]
  by_cases h : k < 16
  · simp [h, hk]
  · simp [h, BitVec.getLsbD_of_ge imm16 k (by omega)]

@[simp] theorem upperImmediate_toNat (imm16 : BitVec 16) :
    (upperImmediate imm16).toNat = imm16.toNat * 2 ^ 16 := by
  have := imm16.isLt
  rw [upperImmediate, BitVec.toNat_shiftLeft, zext32_toNat, Nat.shiftLeft_eq]
  omega

@[simp] theorem shiftLeft_toNat (a : Word) (shamt : BitVec 5) :
    (shiftLeft a shamt).toNat = a.toNat * 2 ^ shamt.toNat % 2 ^ 32 := by
  rw [shiftLeft, BitVec.toNat_shiftLeft, Nat.shiftLeft_eq]

@[simp] theorem shiftRight_toNat (a : Word) (shamt : BitVec 5) :
    (shiftRight a shamt).toNat = a.toNat / 2 ^ shamt.toNat := by
  rw [shiftRight, BitVec.toNat_ushiftRight, Nat.shiftRight_eq_div_pow]

/-- The exact signed sum of a register and an immediate, modulo 2^32 (R106, R116). -/
theorem add_sext32_toNat (a : Word) (imm16 : BitVec 16) :
    ((a + sext32 imm16).toNat : Int) = ((a.toNat : Int) + imm16.toInt) % 2 ^ 32 := by
  have h := toInt_emod (sext32 imm16)
  rw [sext32_toInt] at h
  rw [BitVec.toNat_add]
  omega

/-- The branch target in integers, modulo 2^32 (R112). -/
theorem branchTarget_toNat (pc : Word) (imm16 : BitVec 16) :
    ((branchTarget pc imm16).toNat : Int) = ((pc.toNat : Int) + 4 + 4 * imm16.toInt) % 2 ^ 32 := by
  have h := toInt_emod (sext32 imm16)
  rw [sext32_toInt] at h
  simp only [branchTarget, branchOffset, BitVec.toNat_add, BitVec.toNat_shiftLeft, Nat.shiftLeft_eq,
    show (4 : Word).toNat = 4 from rfl]
  omega

/-- The jump target in integers: the region of the J's own `pc`, and the address times 4 (R57). -/
theorem jumpTarget_toNat (pc : Word) (address : BitVec 26) :
    (jumpTarget pc address).toNat = pc.toNat / 2 ^ 28 * 2 ^ 28 + address.toNat * 4 := by
  have hp := pc.isLt
  have ha := address.isLt
  have hhi : (pc &&& 0xF0000000).toNat = pc.toNat / 2 ^ 28 * 2 ^ 28 := by
    have : pc &&& 0xF0000000 = pc.extractLsb' 28 4 ++ (0 : BitVec 28) := by
      refine BitVec.eq_of_getLsbD_eq fun k hk => ?_
      simp only [BitVec.getLsbD_and, BitVec.getLsbD_append, BitVec.getLsbD_extractLsb']
      by_cases h : k < 28
      · simp only [h, if_true]
        interval_cases k <;> simp
      · have hlo : 28 ≤ k := by omega
        simp only [h, if_false]
        clear h
        interval_cases k <;> simp_all
    rw [this, append_toNat, BitVec.extractLsb'_toNat, Nat.shiftRight_eq_div_pow,
      show (0 : BitVec 28).toNat = 0 from rfl]
    omega
  have hlo : (address.setWidth 32 <<< 2).toNat = address.toNat * 4 := by
    rw [BitVec.toNat_shiftLeft, BitVec.toNat_setWidth, Nat.shiftLeft_eq]
    omega
  rw [jumpTarget, BitVec.toNat_or, hhi, hlo, ← Nat.shiftLeft_eq, ← Nat.shiftLeft_add_eq_or_of_lt (by omega),
    Nat.shiftLeft_eq]

@[simp] theorem setOnLess_toNat (a b : Word) :
    (setOnLess a b).toNat = if a.toInt < b.toInt then 1 else 0 := by
  simp only [setOnLess, signedLess]
  by_cases h : a.toInt < b.toInt <;> simp [h]

theorem samePattern_iff (a b : Word) : samePattern a b = true ↔ a = b := by simp [samePattern]

/-! ## Alignment (10_state.md R14) -/

theorem branchTarget_aligned {pc : Word} (h : pc.toNat % 4 = 0) (imm16 : BitVec 16) :
    (branchTarget pc imm16).toNat % 4 = 0 := by
  have := branchTarget_toNat pc imm16
  omega

theorem jumpTarget_aligned (pc : Word) (address : BitVec 26) : (jumpTarget pc address).toNat % 4 = 0 := by
  rw [jumpTarget_toNat]
  omega

theorem add_four_aligned {pc : Word} (h : pc.toNat % 4 = 0) : (pc + 4).toNat % 4 = 0 := by
  rw [BitVec.toNat_add, show (4 : Word).toNat = 4 from rfl]
  omega

end Sys2Proof.Machine
end

