-- ==== Sys2Proof/Laws/PerInstr.lean ====
section
/-! SUPPORT. The family TableRow: the word of every instruction matches the row of the opcode table that carries its
mnemonic. One lemma per constructor. -/

namespace Sys2Proof.Laws.TableRow

/-- The instruction's word matches the row of its mnemonic (30_encoding.md R53, R60, R62). -/
def Statement (i : Instr) : Prop :=
  ∃ row ∈ opcodeTable, row.mnemonic = i.mnemonic ∧ encode i &&& row.mask = row.bits

theorem of_packR (name : String) {rs rt rd shamt : BitVec 5} {funct : Code}
    (hrow : (⟨name, 0xFC00003F, (0 : Code) ++ (0 : BitVec 20) ++ funct⟩ : OpcodeRow) ∈ opcodeTable) :
    ∃ row ∈ opcodeTable, row.mnemonic = name ∧ packR 0 rs rt rd shamt funct &&& row.mask = row.bits :=
  ⟨_, hrow, rfl, (and_maskR_eq _ _ _).mpr ⟨opcodeOf_packR .., functOf_packR ..⟩⟩

theorem of_packI (name : String) {op : Code} {rs rt : RegIdx} {imm16 : BitVec 16}
    (hrow : (⟨name, 0xFC000000, op ++ (0 : BitVec 26)⟩ : OpcodeRow) ∈ opcodeTable) :
    ∃ row ∈ opcodeTable, row.mnemonic = name ∧ packI op rs rt imm16 &&& row.mask = row.bits :=
  ⟨_, hrow, rfl, (and_maskI_eq _ _).mpr (opcodeOf_packI ..)⟩

theorem of_packJ (name : String) {op : Code} {address : BitVec 26}
    (hrow : (⟨name, 0xFC000000, op ++ (0 : BitVec 26)⟩ : OpcodeRow) ∈ opcodeTable) :
    ∃ row ∈ opcodeTable, row.mnemonic = name ∧ packJ op address &&& row.mask = row.bits :=
  ⟨_, hrow, rfl, (and_maskI_eq _ _).mpr (opcodeOf_packJ ..)⟩

theorem add (rs rt rd shamt : BitVec 5) : Statement (.add rs rt rd shamt) :=
  of_packR "ADD" (by decide)
theorem sub (rs rt rd shamt : BitVec 5) : Statement (.sub rs rt rd shamt) :=
  of_packR "SUB" (by decide)
theorem and (rs rt rd shamt : BitVec 5) : Statement (.and rs rt rd shamt) :=
  of_packR "AND" (by decide)
theorem or (rs rt rd shamt : BitVec 5) : Statement (.or rs rt rd shamt) :=
  of_packR "OR" (by decide)
theorem slt (rs rt rd shamt : BitVec 5) : Statement (.slt rs rt rd shamt) :=
  of_packR "SLT" (by decide)
theorem sll (rs rt rd shamt : BitVec 5) : Statement (.sll rs rt rd shamt) :=
  of_packR "SLL" (by decide)
theorem srl (rs rt rd shamt : BitVec 5) : Statement (.srl rs rt rd shamt) :=
  of_packR "SRL" (by decide)
theorem halt (rs rt rd shamt : BitVec 5) : Statement (.halt rs rt rd shamt) :=
  of_packR "HALT" (by decide)
theorem addi (rs rt : RegIdx) (imm16 : BitVec 16) : Statement (.addi rs rt imm16) :=
  of_packI "ADDI" (by decide)
theorem andi (rs rt : RegIdx) (imm16 : BitVec 16) : Statement (.andi rs rt imm16) :=
  of_packI "ANDI" (by decide)
theorem ori (rs rt : RegIdx) (imm16 : BitVec 16) : Statement (.ori rs rt imm16) :=
  of_packI "ORI" (by decide)
theorem slti (rs rt : RegIdx) (imm16 : BitVec 16) : Statement (.slti rs rt imm16) :=
  of_packI "SLTI" (by decide)
theorem lui (rs rt : RegIdx) (imm16 : BitVec 16) : Statement (.lui rs rt imm16) :=
  of_packI "LUI" (by decide)
theorem beq (rs rt : RegIdx) (imm16 : BitVec 16) : Statement (.beq rs rt imm16) :=
  of_packI "BEQ" (by decide)
theorem bne (rs rt : RegIdx) (imm16 : BitVec 16) : Statement (.bne rs rt imm16) :=
  of_packI "BNE" (by decide)
theorem lw (rs rt : RegIdx) (imm16 : BitVec 16) : Statement (.lw rs rt imm16) :=
  of_packI "LW" (by decide)
theorem sw (rs rt : RegIdx) (imm16 : BitVec 16) : Statement (.sw rs rt imm16) :=
  of_packI "SW" (by decide)
theorem j (address : BitVec 26) : Statement (.j address) :=
  of_packJ "J" (by decide)

end Sys2Proof.Laws.TableRow
end

