-- ==== Sys2Proof/Laws/Step.lean ====
section
/-! SUPPORT. What raising, each instruction and one step answer, said once. -/

namespace Sys2Proof.Machine

/-! ## Raising -/

/-- A first condition is latched, and nothing else changes (R136). -/
theorem raiseFault_of_none {s : State} (h : s.fault = .none) (c : FaultLatch) :
    raiseFault c s = s.setFault c := by
  simp [raiseFault, h]

/-- The latch is "never overwritten" (R18). -/
theorem raiseFault_of_latched {s : State} (h : s.fault ≠ .none) (c : FaultLatch) : raiseFault c s = s := by
  unfold raiseFault
  split
  · contradiction
  · rfl
  · rfl

/-- Everything raising can do. -/
theorem raiseFault_cases (c : FaultLatch) (s : State) :
    (s.fault = .none ∧ raiseFault c s = s.setFault c) ∨ (s.fault ≠ .none ∧ raiseFault c s = s) := by
  by_cases h : s.fault = .none
  · exact .inl ⟨h, raiseFault_of_none h c⟩
  · exact .inr ⟨h, raiseFault_of_latched h c⟩

/-- In one formula, for every state. -/
theorem raiseFault_eq (c : FaultLatch) (s : State) :
    raiseFault c s = s.setFault (if s.fault = .none then c else s.fault) := by
  rcases raiseFault_cases c s with ⟨h, e⟩ | ⟨h, e⟩
  · rw [e, if_pos h]
  · rw [e, if_neg h]; rfl

/-! ## The instructions, one equation each -/

section
variable (rs rt rd shamt : BitVec 5) (imm16 : BitVec 16) (address : BitVec 26) (s : State)

theorem exec_add : exec (.add rs rt rd shamt) s =
    .next (((s.setReg rd (s.reg rs + s.reg rt)).advancePc).tickFunct Config.numerals.functAdd) := rfl

theorem exec_sub : exec (.sub rs rt rd shamt) s =
    .next (((s.setReg rd (s.reg rs - s.reg rt)).advancePc).tickFunct Config.numerals.functSub) := rfl

theorem exec_and : exec (.and rs rt rd shamt) s =
    .next (((s.setReg rd (s.reg rs &&& s.reg rt)).advancePc).tickFunct Config.numerals.functAnd) := rfl

theorem exec_or : exec (.or rs rt rd shamt) s =
    .next (((s.setReg rd (s.reg rs ||| s.reg rt)).advancePc).tickFunct Config.numerals.functOr) := rfl

theorem exec_slt : exec (.slt rs rt rd shamt) s =
    .next (((s.setReg rd (setOnLess (s.reg rs) (s.reg rt))).advancePc).tickFunct Config.numerals.functSlt) := rfl

theorem exec_sll : exec (.sll rs rt rd shamt) s =
    .next (((s.setReg rd (shiftLeft (s.reg rt) shamt)).advancePc).tickFunct Config.numerals.functSll) := rfl

theorem exec_srl : exec (.srl rs rt rd shamt) s =
    .next (((s.setReg rd (shiftRight (s.reg rt) shamt)).advancePc).tickFunct Config.numerals.functSrl) := rfl

theorem exec_halt : exec (.halt rs rt rd shamt) s =
    .next (s.clearRunning.tickFunct Config.numerals.functHalt) := rfl

theorem exec_addi : exec (.addi rs rt imm16) s =
    .next (((s.setReg rt (s.reg rs + sext32 imm16)).advancePc).tickOpcode Config.numerals.opAddi) := rfl

theorem exec_andi : exec (.andi rs rt imm16) s =
    .next (((s.setReg rt (s.reg rs &&& zext32 imm16)).advancePc).tickOpcode Config.numerals.opAndi) := rfl

theorem exec_ori : exec (.ori rs rt imm16) s =
    .next (((s.setReg rt (s.reg rs ||| zext32 imm16)).advancePc).tickOpcode Config.numerals.opOri) := rfl

theorem exec_slti : exec (.slti rs rt imm16) s =
    .next (((s.setReg rt (setOnLess (s.reg rs) (sext32 imm16))).advancePc).tickOpcode
      Config.numerals.opSlti) := rfl

theorem exec_lui : exec (.lui rs rt imm16) s =
    .next (((s.setReg rt (upperImmediate imm16)).advancePc).tickOpcode Config.numerals.opLui) := rfl

theorem exec_beq_of_eq (h : s.reg rs = s.reg rt) : exec (.beq rs rt imm16) s =
    .next ((s.setPc (branchTarget s.pc imm16)).tickOpcode Config.numerals.opBeq) := by
  simp [exec, execBeq, commitJump, samePattern, h]

theorem exec_beq_of_ne (h : s.reg rs ≠ s.reg rt) : exec (.beq rs rt imm16) s =
    .next (s.advancePc.tickOpcode Config.numerals.opBeq) := by
  simp [exec, execBeq, commitJump, samePattern, h, State.advancePc]

theorem exec_bne_of_eq (h : s.reg rs = s.reg rt) : exec (.bne rs rt imm16) s =
    .next (s.advancePc.tickOpcode Config.numerals.opBne) := by
  simp [exec, execBne, commitJump, samePattern, h, State.advancePc]

theorem exec_bne_of_ne (h : s.reg rs ≠ s.reg rt) : exec (.bne rs rt imm16) s =
    .next ((s.setPc (branchTarget s.pc imm16)).tickOpcode Config.numerals.opBne) := by
  simp [exec, execBne, commitJump, samePattern, h]

theorem exec_lw_of_lt (h : wordIndex (effectiveAddress s rs imm16) < s.mem.size) :
    exec (.lw rs rt imm16) s =
      .next (((s.setReg rt (s.mem.word (wordIndex (effectiveAddress s rs imm16)))).advancePc).tickOpcode
        Config.numerals.opLw) := by
  simp [exec, execLw, Memory.load_of_lt h, commitI]

theorem exec_lw_of_ge (h : s.mem.size ≤ wordIndex (effectiveAddress s rs imm16)) :
    exec (.lw rs rt imm16) s =
      .next (raiseFault (.outOfBoundsAccess .load (effectiveAddress s rs imm16)) s) := by
  simp [exec, execLw, Memory.load_eq_none.mpr h, raised]

theorem exec_sw_of_lt (h : wordIndex (effectiveAddress s rs imm16) < s.mem.size) :
    exec (.sw rs rt imm16) s =
      .next (((s.setMem (s.mem.setWord (wordIndex (effectiveAddress s rs imm16)) (s.reg rt))).advancePc).tickOpcode
        Config.numerals.opSw) := by
  simp [exec, execSw, Memory.store_of_lt _ h, commitStore]

theorem exec_sw_of_ge (h : s.mem.size ≤ wordIndex (effectiveAddress s rs imm16)) :
    exec (.sw rs rt imm16) s =
      .next (raiseFault (.outOfBoundsAccess .store (effectiveAddress s rs imm16)) s) := by
  simp [exec, execSw, Memory.store_eq_none.mpr h, raised]

theorem exec_j : exec (.j address) s =
    .next ((s.setPc (jumpTarget s.pc address)).tickOpcode Config.numerals.opJ) := rfl

end

/-- Every instruction answers a next state, at every state. -/
theorem exec_isNext (i : Instr) (s : State) : ∃ t, exec i s = .next t := by
  cases i with
  | lw rs rt imm16 =>
    rcases Nat.lt_or_ge (wordIndex (effectiveAddress s rs imm16)) s.mem.size with h | h
    · exact ⟨_, exec_lw_of_lt _ _ _ _ h⟩
    · exact ⟨_, exec_lw_of_ge _ _ _ _ h⟩
  | sw rs rt imm16 =>
    rcases Nat.lt_or_ge (wordIndex (effectiveAddress s rs imm16)) s.mem.size with h | h
    · exact ⟨_, exec_sw_of_lt _ _ _ _ h⟩
    · exact ⟨_, exec_sw_of_ge _ _ _ _ h⟩
  | _ => exact ⟨_, rfl⟩

/-! ## The stop and the step -/

theorem stopReason_eq_none {s : State} : stopReason s = none ↔ s.running = true ∧ s.fault = .none := by
  unfold stopReason
  split <;> simp_all

theorem stopReason_eq_halted {s : State} :
    stopReason s = some .halted ↔ s.running = false ∧ s.fault = .none := by
  unfold stopReason
  split <;> simp_all

theorem stopReason_eq_faulted {s : State} : stopReason s = some .faulted ↔ s.fault ≠ .none := by
  unfold stopReason
  split <;> simp_all

/-- A machine that steps does so by its fetched word. -/
theorem step_of_live {s : State} (hr : s.running = true) (hf : s.fault = .none) :
    step s =
      match fetchWord s with
      | none => raised (.outOfBoundsAccess .fetch s.pc) s
      | some w =>
        match decodeInstr w with
        | .error u => raised (unsupportedLatch u) s
        | .ok i => exec i s := by
  have hs := stopReason_eq_none.mpr ⟨hr, hf⟩
  unfold step
  split
  · simp_all
  · rfl

/-- Everything a step that answers a next state can have done. -/
theorem step_cases {s t : State} (h : step s = .next t) :
    s.running = true ∧ s.fault = .none ∧
    ((fetchWord s = none ∧ t = s.setFault (.outOfBoundsAccess .fetch s.pc)) ∨
     (∃ w u, fetchWord s = some w ∧ decodeInstr w = .error u ∧ t = s.setFault (unsupportedLatch u)) ∨
     (∃ w i, fetchWord s = some w ∧ decodeInstr w = .ok i ∧ exec i s = .next t)) := by
  cases hs : stopReason s with
  | some reason => rw [step, hs] at h; exact nomatch h
  | none =>
    obtain ⟨hr, hf⟩ := stopReason_eq_none.mp hs
    refine ⟨hr, hf, ?_⟩
    rw [step_of_live hr hf] at h
    cases hw : fetchWord s with
    | none =>
      rw [hw] at h
      simp only [raised, raiseFault_of_none hf, Host.Outcome.next.injEq] at h
      exact .inl ⟨rfl, h.symm⟩
    | some w =>
      rw [hw] at h
      cases hd : decodeInstr w with
      | error u =>
        simp only [hd, raised, raiseFault_of_none hf, Host.Outcome.next.injEq] at h
        exact .inr (.inl ⟨w, u, rfl, hd, h.symm⟩)
      | ok i =>
        simp only [hd] at h
        exact .inr (.inr ⟨w, i, rfl, hd, h⟩)

end Sys2Proof.Machine
end

