-- ==== Sys2Proof/Tests/Slice0.lean ====
section
/-! SUPPORT. The model's own tests. Expected results are those of spec/95_test_vectors.md (the section stands beside
each group) and of the rules' worked examples; the witnesses show that the hypotheses of each statement can be met. -/

namespace Sys2Proof.Tests

open Sys2Proof Sys2Proof.Machine

/-! ## Helpers -/

/-- The state a result goes on with, if it goes on. -/
def nextOf (r : Result) : Option State :=
  match r with
  | .next t => some t
  | .fault _ => none
  | .refused _ => none

/-- A running state with 1024 words, the given registers, `pc` and listed words. -/
def mk (regs : List (RegIdx × Word)) (pc : Word) (cells : List (Nat × Word)) : State :=
  regs.foldl (fun s p => s.setReg p.1 p.2) { State.reset with pc := pc, mem := ⟨1024, cells⟩ }

/-- One step on such a state, with a word stored where it fetches. -/
def after (w : Nat) (regs : List (RegIdx × Word)) (pc : Word) (cells : List (Nat × Word)) : Option State :=
  nextOf (step ((mk regs pc cells).withFetchWord 32 w))

/-- A register after that step. -/
def regAfter (w : Nat) (regs : List (RegIdx × Word)) (r : RegIdx) : Option Word :=
  (after w regs 0 []).map (·.reg r)

/-- `pc` after that step. -/
def pcAfter (w : Nat) (regs : List (RegIdx × Word)) (pc : Word) : Option Word :=
  (after w regs pc []).map (·.pc)

/-! ## WellFormed: an ill-formed term for each check, which the check refuses -/

theorem test_defaults_wellFormed : Config.numerals.wellFormed = true := by decide

theorem test_equal_functs_refused :
    ({ Config.numerals with functSub := 0x20 } : Numerals).functsDistinct = false := by decide

theorem test_equal_opcodes_refused :
    ({ Config.numerals with opSw := 0x23 } : Numerals).iOpcodesDistinct = false := by decide

theorem test_opcode_of_another_format_refused :
    ({ Config.numerals with opAddi := 0x03 } : Numerals).iOpcodesAreIFormat = false ∧
    ({ Config.numerals with opLui := 0x00 } : Numerals).iOpcodesAreIFormat = false := by decide

theorem test_jump_opcode_refused :
    ({ Config.numerals with opJ := 0x04 } : Numerals).opJIsJFormat = false ∧
    ({ Config.numerals with opJ := 0x03 } : Numerals).wellFormed = true := by decide

theorem test_memory_sizes_refused :
    memWordsWellFormed 0 = false ∧ memWordsWellFormed (2 ^ 28 + 1) = false ∧
    memWordsWellFormed 1 = true ∧ memWordsWellFormed (2 ^ 28) = true := by decide

theorem test_empty_image_refused : imageWellFormed [] = false := by decide

theorem test_ill_tagged_decode_results_refused :
    (Decoded.r 1 0 0 0 0 0).wellFormed = false ∧ (Decoded.j 4 0).wellFormed = false ∧
    (Decoded.i 2 0 0 0).wellFormed = false ∧ (Decoded.i 8 0 0 0x00008000).wellFormed = false := by decide

theorem test_memory_form_refused :
    ¬ (⟨4, [(1, 5), (0, 6)]⟩ : Memory).wf ∧ ¬ (⟨4, [(1, 0)]⟩ : Memory).wf ∧
    ¬ (⟨4, [(4, 5)]⟩ : Memory).wf ∧ (⟨4, [(0, 6), (3, 5)]⟩ : Memory).wf := by decide

/-! ## Decoding: every constructor by a word written from R51, R53 and R60 (95_test_vectors.md 2.1 to 2.7, P3) -/

theorem test_decode_add : decodeTableWord 32 0x00430FE0 = some (.add 2 3 1 31) := by decide
theorem test_decode_sub : decodeTableWord 32 0x00221822 = some (.sub 1 2 3 0) := by decide
theorem test_decode_and : decodeTableWord 32 0x00234824 = some (.and 1 3 9 0) := by decide
theorem test_decode_or : decodeTableWord 32 0x00465025 = some (.or 2 6 10 0) := by decide
theorem test_decode_slt : decodeTableWord 32 0x0020202A = some (.slt 1 0 4 0) := by decide
theorem test_decode_sll : decodeTableWord 32 0x00021FC0 = some (.sll 0 2 3 31) := by decide
theorem test_decode_srl : decodeTableWord 32 0x000117C2 = some (.srl 0 1 2 31) := by decide
theorem test_decode_halt : decodeTableWord 32 0x03FFFFFF = some (.halt 31 31 31 31) := by decide
theorem test_decode_addi : decodeTableWord 32 0x2021FFFF = some (.addi 1 1 0xFFFF) := by decide
theorem test_decode_andi : decodeTableWord 32 0x3022FF00 = some (.andi 1 2 0xFF00) := by decide
theorem test_decode_ori : decodeTableWord 32 0x34218000 = some (.ori 1 1 0x8000) := by decide
theorem test_decode_slti : decodeTableWord 32 0x2825FFFF = some (.slti 1 5 0xFFFF) := by decide
theorem test_decode_lui : decodeTableWord 32 0x3FE10001 = some (.lui 31 1 1) := by decide
theorem test_decode_beq : decodeTableWord 32 0x10480001 = some (.beq 2 8 1) := by decide
theorem test_decode_bne : decodeTableWord 32 0x1420FFFD = some (.bne 1 0 0xFFFD) := by decide
theorem test_decode_lw : decodeTableWord 32 0x8C01FFFC = some (.lw 0 1 0xFFFC) := by decide
theorem test_decode_sw : decodeTableWord 32 0xAC220003 = some (.sw 1 2 3) := by decide
theorem test_decode_j : decodeTableWord 32 0x0BFFFFFF = some (.j 0x3FFFFFF) := by decide

/-- The bits of LW r1,#-4(r0), written out field by field (R51, R60). -/
theorem test_decode_from_bits :
    decodeInstr (0b100011#6 ++ 0b00000#5 ++ 0b00001#5 ++ 0b1111111111111100#16) =
      .ok (.lw 0 1 0xFFFC) := by decide

/-- The round-trip example of R66: the fields encode to `0x00430820`. -/
theorem test_encode_add : encode (.add 2 3 1 0) = 0x00430820 := by decide

/-- Illegal words (2.1, 2.8). -/
theorem test_illegal_words :
    decodeInstr 0x0000000C = .error ⟨.r, 0x0C⟩ ∧ decodeInstr 0x04000000 = .error ⟨.i, 0x01⟩ ∧
    decodeInstr 0x38000000 = .error ⟨.i, 0x0E⟩ ∧ decodeInstr 0x0FFFFFFF = .error ⟨.j, 0x03⟩ := by decide

/-! ## One step of each instruction (95_test_vectors.md 2.2 to 2.7) -/

theorem test_add_wraps : regAfter 0x00430820 [(2, 0x7FFFFFFF), (3, 1)] 1 = some 0x80000000 := by decide
theorem test_add_writes_register_zero : regAfter 0x00000020 [(0, 3)] 0 = some 6 := by decide
theorem test_sub_minuend_is_rs : regAfter 0x00221822 [(1, 3), (2, 5)] 3 = some 0xFFFFFFFE := by decide
theorem test_sub_wraps : regAfter 0x00221822 [(1, 0x80000000), (2, 1)] 3 = some 0x7FFFFFFF := by decide
theorem test_and : regAfter 0x00221824 [(1, 0xFF00FF00), (2, 0x0FF00FF0)] 3 = some 0x0F000F00 := by decide
theorem test_or : regAfter 0x00221825 [(1, 0xFF00FF00), (2, 0x0FF00FF0)] 3 = some 0xFFF0FFF0 := by decide
theorem test_slt_is_signed : regAfter 0x0022182A [(1, 0x80000000), (2, 0x7FFFFFFF)] 3 = some 1 := by decide
theorem test_slt_zero_against_minus_one : regAfter 0x0022182A [(1, 0), (2, 0xFFFFFFFF)] 3 = some 0 := by decide
theorem test_sll_drops_high_bits : regAfter 0x00021840 [(2, 0x80000001)] 3 = some 2 := by decide
theorem test_sll_by_31 : regAfter 0x00021FC0 [(2, 3)] 3 = some 0x80000000 := by decide
theorem test_srl_is_logical : regAfter 0x00021902 [(2, 0xFFFFFFFF)] 3 = some 0x0FFFFFFF := by decide
theorem test_srl_by_31 : regAfter 0x00021FC2 [(2, 0x80000000)] 3 = some 1 := by decide
theorem test_addi_extends_the_sign : regAfter 0x20028000 [(0, 0)] 2 = some 0xFFFF8000 := by decide
theorem test_addi_wraps : regAfter 0x2022FFFF [(1, 0x80000000)] 2 = some 0x7FFFFFFF := by decide
theorem test_andi_clears_the_upper_half : regAfter 0x3022FFFF [(1, 0xFFFFFFFF)] 2 = some 0x0000FFFF := by decide
theorem test_ori_does_not_extend_the_sign : regAfter 0x34028000 [(0, 0)] 2 = some 0x00008000 := by decide
theorem test_slti_signed_immediate : regAfter 0x28228000 [(1, 0x00008000)] 2 = some 0 := by decide
theorem test_slti_minus_one_below_zero : regAfter 0x28220000 [(1, 0xFFFFFFFF)] 2 = some 1 := by decide
theorem test_lui : regAfter 0x3C018000 [] 1 = some 0x80000000 := by decide
theorem test_lui_ignores_rs : regAfter 0x3FE10001 [(31, 7)] 1 = some 0x00010000 := by decide

theorem test_halt_keeps_pc :
    (after 0x0000003F [] 12 []).map (fun t => (t.running, t.pc, t.functCount 0x3F)) = some (false, 12, 1) := by
  decide

theorem test_halted_machine_is_stuck :
    step { State.reset with running := false } = .fault .halted := rfl

theorem test_beq_taken : pcAfter 0x10220003 [(1, 7), (2, 7)] 8 = some 24 := by decide
theorem test_beq_wraps_below_zero : pcAfter 0x1000FFFE [] 0 = some 0xFFFFFFFC := by decide
theorem test_bne_backwards : pcAfter 0x1420FFFD [(1, 4)] 16 = some 8 := by decide
theorem test_bne_not_taken : pcAfter 0x1420FFFD [] 16 = some 20 := by decide
theorem test_j : pcAfter 0x0800000E [] 44 = some 56 := by decide

/-- Vector 2.7, last row: bits 31:28 of `pc` are kept, in a memory large enough to fetch there. -/
theorem test_j_keeps_the_region :
    (nextOf (step { State.reset with
      pc := 0x3000002C, mem := ⟨2 ^ 28, [(0x0C00000B, 0x0800000E)]⟩ })).map (·.pc) = some 0x30000038 := by
  decide

theorem test_lw_drops_low_address_bits :
    (after 0x8C030043 [] 0 [(16, 15)]).map (·.reg 3) = some 15 := by decide

theorem test_lw_out_of_bounds :
    (after 0x8C01FFFC [(1, 9)] 0 []).map (fun t => (t.fault, t.reg 1, t.pc, t.opcodeCount 0x23)) =
      some (.outOfBoundsAccess .load 0xFFFFFFFC, 9, 0, 0) := by decide

theorem test_sw_replaces_the_whole_word :
    (after 0xAC220003 [(1, 6), (2, 0xCAFEF00D)] 0 [(2, 1), (3, 4)]).map (fun t => (t.mem.word 2, t.mem.word 3)) =
      some (0xCAFEF00D, 4) := by decide

theorem test_sw_out_of_bounds :
    (after 0xAC210000 [(1, 0x00001000)] 0 []).map (fun t => (t.fault, t.running, t.pc, t.opcodeCount 0x2B)) =
      some (.outOfBoundsAccess .store 0x00001000, true, 0, 0) := by decide

/-- The fetch runs what `withFetchWord` stored (2.8), and SRL and J count in two tables (2.9). -/
theorem test_unsupported_word_latches :
    (after 0x0C000000 [] 0 []).map (fun t => (t.fault, t.pc, t.running)) =
      some (.unsupportedOperation .j 0x03, 0, true) := by decide

theorem test_srl_and_j_count_apart :
    (after 0x00011042 [] 0 []).map (fun t => (t.functCount 2, t.opcodeCount 2)) = some (1, 0) ∧
    (after 0x08000002 [] 0 []).map (fun t => (t.functCount 2, t.opcodeCount 2)) = some (0, 1) := by decide

/-- With one word of memory the second fetch is out of bounds (2.8). -/
theorem test_fetch_out_of_bounds :
    (nextOf (step { State.boot [0] with pc := 4 })).map (fun t => (t.fault, t.pc)) =
      some (.outOfBoundsAccess .fetch 4, 4) := by decide

/-- The fault port and the read-out (R133, R147). -/
theorem test_fault_port :
    faultCause (.unsupportedOperation .j 0x03) = 1 ∧ faultInfo (.unsupportedOperation .j 0x03) = 0x83 ∧
    faultCause (.outOfBoundsAccess .store 8) = 4 ∧ faultInfo (.outOfBoundsAccess .store 8) = 8 := by decide

theorem test_read_out :
    memoryReport (State.boot [0, 7, 0, 9]) = [(4, 7), (12, 9)] ∧
    functReport ((State.boot [0]).tickFunct 0x20) = [(0x20, 1)] := by decide

/-! ## Witnesses: the hypotheses of each statement are met -/

/-- A store of the HALT word to the word after it (95_test_vectors.md P5). -/
def storeAhead : State := mk [(1, 0x3F)] 8 [(2, 0xAC01000C), (3, 0x20020001)]

/-- A numeral assignment that is not the default, and is admitted. -/
def otherNumerals : Numerals := { Config.numerals with functHalt := 0x01, opJ := 0x03 }

theorem witness_DecoderFieldsAreTheBitsOfTheWord :
    (0x03FFFFFF : Word).toNat / 2 ^ 26 = 0 ∧ (0x0BFFFFFF : Word).toNat / 2 ^ 26 = 2 ∧
    (0x0C000000 : Word).toNat / 2 ^ 26 = 3 ∧
    ((0x04008000 : Word).toNat / 2 ^ 26 = 1 ∧ (0x04008000 : Word).toNat % 2 ^ 16 = 2 ^ 15) ∧
    (0xFFFF7FFF : Word).toNat / 2 ^ 26 = 63 := by decide

theorem witness_DecodedFieldsRoundTrip : (Decoded.i 0x3F 31 31 0xFFFF8000).wellFormed = true := by decide

theorem witness_DecodeOfEncodeUnderAllNumerals :
    Config.numerals.wellFormed = true ∧ otherNumerals.wellFormed = true := by decide

theorem witness_EncodeOfDecodeUnderAllNumerals :
    decodeWith otherNumerals 0x0C000001 = .ok (.j 1) ∧ decodeWith otherNumerals 0x00000001 = .ok (.halt 0 0 0 0) := by
  decide

theorem witness_DecoderAgreesWithTheOpcodeTable :
    decodeInstr 0x00000000 = .ok (.sll 0 0 0 0) ∧ decodeInstr 0xFFFFFFFF = .error ⟨.i, 0x3F⟩ ∧
    (⟨"J", 0xFC000000, 0x08000000⟩ : OpcodeRow) ∈ opcodeTable := by decide

theorem witness_StepRunsTheDecodedInstruction :
    storeAhead.isLive ∧ fetchWord storeAhead = some 0xAC01000C ∧
    decodeInstr 0xAC01000C = .ok (.sw 0 1 0x000C) := by decide

theorem witness_FetchOutOfBoundsOnlyLatches :
    (mk [] 4096 []).isLive ∧ (mk [] 4096 []).mem.size ≤ (mk [] 4096 []).pc.toNat / 4 := by decide

theorem witness_UnsupportedWordOnlyLatches :
    (mk [] 0 [(0, 0x21)]).isLive ∧ fetchWord (mk [] 0 [(0, 0x21)]) = some 0x21 ∧
    decodeInstr 0x21 = .error ⟨.r, 0x21⟩ := by decide

theorem witness_AddWritesTheWrappedSum : (0x00430FE0 : Word) &&& 0xFC00003F = 0x00000020 := by decide
theorem witness_SubWritesTheWrappedDifference : (0x00221822 : Word) &&& 0xFC00003F = 0x00000022 := by decide
theorem witness_AndWritesTheBitwiseAnd : (0x00221824 : Word) &&& 0xFC00003F = 0x00000024 := by decide
theorem witness_OrWritesTheBitwiseOr : (0x00201825 : Word) &&& 0xFC00003F = 0x00000025 := by decide
theorem witness_SltWritesTheSignedComparison : (0x0022182A : Word) &&& 0xFC00003F = 0x0000002A := by decide
theorem witness_SllWritesTheLeftShift : (0x00021FC0 : Word) &&& 0xFC00003F = 0x00000000 := by decide
theorem witness_SrlWritesTheLogicalRightShift : (0x00021FC2 : Word) &&& 0xFC00003F = 0x00000002 := by decide
theorem witness_HaltOnlyClearsRunning : (0x03FFFFFF : Word) &&& 0xFC00003F = 0x0000003F := by decide
theorem witness_AddiWritesTheWrappedSum : (0x2021FFFF : Word) &&& 0xFC000000 = 0x20000000 := by decide
theorem witness_AndiMasksWithTheUnsignedImmediate : (0x3022FF00 : Word) &&& 0xFC000000 = 0x30000000 := by decide
theorem witness_OriSetsTheUnsignedImmediate : (0x34028000 : Word) &&& 0xFC000000 = 0x34000000 := by decide
theorem witness_SltiWritesTheSignedComparison : (0x28228000 : Word) &&& 0xFC000000 = 0x28000000 := by decide
theorem witness_LuiWritesTheUpperHalf : (0x3FE10001 : Word) &&& 0xFC000000 = 0x3C000000 := by decide
theorem witness_JumpKeepsTheRegion : (0x0BFFFFFF : Word) &&& 0xFC000000 = 0x08000000 := by decide

theorem witness_BeqBranchesOnEqual :
    (0x10220003 : Word) &&& 0xFC000000 = 0x10000000 ∧ (mk [(1, 7), (2, 7)] 8 []).reg 1 = (mk [(1, 7), (2, 7)] 8 []).reg 2 ∧
    (mk [(1, 7), (2, 8)] 8 []).reg 1 ≠ (mk [(1, 7), (2, 8)] 8 []).reg 2 := by decide

theorem witness_BneBranchesOnNotEqual :
    (0x14220003 : Word) &&& 0xFC000000 = 0x14000000 ∧ (mk [(1, 7), (2, 8)] 8 []).reg 1 ≠ (mk [(1, 7), (2, 8)] 8 []).reg 2 ∧
    (mk [(1, 7), (2, 7)] 8 []).reg 1 = (mk [(1, 7), (2, 7)] 8 []).reg 2 := by decide

/-- The last word of the memory is in bounds and the byte after it is not. -/
theorem witness_LwLoadsTheWord :
    (0x8C020FFC : Word) &&& 0xFC000000 = 0x8C000000 ∧
    (effectiveAddress State.reset 0 0x0FFF).toNat / 4 < State.reset.mem.size ∧
    State.reset.mem.size ≤ (effectiveAddress State.reset 0 0x1000).toNat / 4 := by decide

theorem witness_SwStoresTheWord :
    (0xAC020040 : Word) &&& 0xFC000000 = 0xAC000000 ∧
    (effectiveAddress State.reset 0 0x0FFF).toNat / 4 < State.reset.mem.size ∧
    State.reset.mem.size ≤ (effectiveAddress State.reset 0 0xFFFC).toNat / 4 ∧
    wordIndex 0x0FFC = wordIndex (effectiveAddress State.reset 0 0x0FFF) := by decide

theorem witness_LowTwoAddressBitsAreIgnored :
    (effectiveAddress State.reset 0 0x0FFC).toNat / 4 = (effectiveAddress State.reset 0 0x0FFF).toNat / 4 ∧
    (effectiveAddress State.reset 0 0x0FFC).toNat / 4 < State.reset.mem.size := by decide

/-- A store to word 16, an ADDI and a store to word 17 between, then a load at byte address 67. -/
theorem witness_StoreThenLoadGivesTheValue :
    ∃ t u, exec (.sw 0 2 64) (mk [(2, 0x80000000)] 0 []) = .next t ∧
      (effectiveAddress (mk [(2, 0x80000000)] 0 []) 0 64).toNat / 4 < (mk [(2, 0x80000000)] 0 []).mem.size ∧
      execAll [.addi 1 1 1, .sw 0 1 68] t = .next u ∧ StoresNoneTo 16 [.addi 1 1 1, .sw 0 1 68] t ∧
      (effectiveAddress u 0 67).toNat / 4 = (effectiveAddress (mk [(2, 0x80000000)] 0 []) 0 64).toNat / 4 :=
  ⟨_, _, rfl, by decide, rfl, ⟨by decide, by decide, trivial⟩, by decide⟩

theorem witness_StoreIsSeenByTheNextFetch :
    storeAhead.isLive ∧ fetchWord storeAhead = some 0xAC01000C ∧ decodeInstr 0xAC01000C = .ok (.sw 0 1 0x000C) ∧
    (effectiveAddress storeAhead 0 0x000C).toNat / 4 = (storeAhead.pc + 4).toNat / 4 ∧
    (storeAhead.pc + 4).toNat / 4 < storeAhead.mem.size ∧
    decodeInstr (storeAhead.reg 1) = .ok (.halt 0 0 0 0) := by decide

theorem witness_BoundsCheckAgreesWithExactAddresses :
    State.reset.mem.size ≤ 2 ^ 28 ∧ State.reset.mem.inBounds (effectiveAddress State.reset 0 0x0FFF) = true ∧
    State.reset.mem.inBounds (effectiveAddress State.reset 0 0xFFFF) = false := by decide

theorem witness_BranchTargetsWrapOnlyOutOfBounds :
    (mk [] 4092 []).mem.size ≤ 2 ^ 28 ∧ (mk [] 4092 []).mem.inBounds (mk [] 4092 []).pc = true ∧
    State.reset.mem.inBounds State.reset.pc = true ∧
    (State.reset.pc.toNat : Int) + 4 + 4 * (0x8000 : BitVec 16).toInt < 0 := by decide

theorem witness_FetchedPcIsSmall :
    memWordsWellFormed (mk [] 4092 []).mem.size = true ∧ fetchWord (mk [] 4092 []) = some 0 ∧
    (mk [] 4092 []).mem.size ≤ 2 ^ 26 := by decide

/-- An ADD that changes register 1 and does not read register 4, and a LW whose destination it does not read. -/
theorem witness_RegistersAreReadAndWrittenAsTheTableSays :
    ∃ t u, exec (.add 2 3 1 0) (mk [(2, 1)] 0 []) = .next t ∧ t.reg 1 ≠ (mk [(2, 1)] 0 []).reg 1 ∧
      (4 : RegIdx) ∉ readsOf (.add 2 3 1 0) ∧
      exec (.lw 0 1 0) (mk [] 0 [(0, 5)]) = .next u ∧ u.reg 1 ≠ (mk [] 0 [(0, 5)]).reg 1 ∧
      (1 : RegIdx) ∉ readsOf (.lw 0 1 0) :=
  ⟨_, _, rfl, by decide, by decide, rfl, by decide, by decide⟩

/-- A live state at a HALT. -/
theorem witness_OnlyHaltStopsRunning :
    (mk [] 0 [(0, 0x3F)]).isLive ∧ fetchWord (mk [] 0 [(0, 0x3F)]) = some 0x3F ∧
    decodeInstr 0x3F = .ok (.halt 0 0 0 0) := by decide

/-- A step that counts and a step that raises. -/
theorem witness_EveryStepCountsItsInstruction :
    (∃ t, step storeAhead = .next t ∧ t.fault = .none) ∧
    ∃ t, step (mk [] 4096 []) = .next t ∧ t.fault ≠ .none :=
  ⟨⟨_, rfl, by decide⟩, ⟨_, rfl, by decide⟩⟩

theorem witness_RaisingIsPrecise :
    ∃ t, step (mk [] 0 [(0, 0x8C01FFFC)]) = .next t ∧ t.fault ≠ .none := ⟨_, rfl, by decide⟩

theorem witness_ConditionsAreRaisedInOrder :
    ∃ t u v, step (mk [] 4096 []) = .next t ∧ step (mk [] 0 [(0, 0x21)]) = .next u ∧
      step (mk [] 0 [(0, 0xAC01FFFC)]) = .next v := ⟨_, _, _, rfl, rfl, rfl⟩

theorem witness_MemoryChangesOnlyByStores :
    ∃ t, step storeAhead = .next t ∧ t.mem.load 14 ≠ storeAhead.mem.load 14 := ⟨_, rfl, by decide⟩

theorem witness_ResetGivesTheResetState :
    ∃ t, clock (some [0, 7]) storeAhead = t ∧ 1 < ([0, 7] : List Word).length := ⟨_, rfl, by decide⟩

theorem witness_BootStateIsGood : imageWellFormed [0x20010005, 0x0000003F] = true := by decide

/-- `storeAhead` is good, so the invariant is not empty away from reset. -/
theorem storeAhead_inv : Inv storeAhead :=
  ⟨⟨by decide, by decide, by decide⟩, ⟨by decide, by decide⟩, .inl rfl⟩

theorem witness_StepKeepsGoodStates : Inv storeAhead ∧ ∃ t, step storeAhead = .next t := ⟨storeAhead_inv, _, rfl⟩

/-- A run of two steps from an admitted image, to a halted state. -/
theorem witness_ReachableStatesAreGood :
    imageWellFormed [0x20010005, 0x0000003F] = true ∧
    ∃ t, Host.Core.run Sys2Proof.core 2 (State.boot [0x20010005, 0x0000003F]) = .next t ∧ t.isHalted :=
  ⟨by decide, _, rfl, by decide⟩

/-- A run of one step, which raises: nothing is counted. -/
theorem witness_StepsOfARunAreTheSumOfTheCounters :
    ∃ t, Host.Core.run Sys2Proof.core 1 (State.boot [0x21]) = .next t ∧ t.executed = 0 ∧ faultStep t = 1 :=
  ⟨_, rfl, by decide, by decide⟩

/-- A step that counts and a step that raises. -/
theorem witness_EveryStepAddsOneToTheSumOfTheCounters :
    (∃ t, step (State.boot [0x3F]) = .next t ∧ t.executed = 1 ∧ faultStep t = 0) ∧
    ∃ t, step (State.boot [0x21]) = .next t ∧ t.executed = 0 ∧ faultStep t = 1 :=
  ⟨⟨_, rfl, by decide, by decide⟩, _, rfl, by decide, by decide⟩

/-- One run ends well and one badly. -/
theorem witness_RunsEndAtMostOnce :
    (∃ t, RunEndsWell (State.boot [0x3F]) 1 t) ∧ ∃ t, RunEndsBadly (State.boot [0x21]) 1 t :=
  ⟨⟨_, ⟨rfl, by decide⟩, by decide⟩, ⟨_, ⟨rfl, by decide⟩, by decide⟩⟩

theorem witness_StoppedMachineHoldsItsState :
    ({ State.reset with running := false } : State).isHalted ∧
    ({ State.reset with fault := .outOfBoundsAccess .load 0x1000 } : State).isFaulted := by decide

theorem witness_FaultPortDeterminesTheLatch :
    faultCause (.outOfBoundsAccess .load 9) = faultCause (.outOfBoundsAccess .load 9) ∧
    faultInfo (.outOfBoundsAccess .load 9) = faultInfo (.outOfBoundsAccess .load 9) := by decide

theorem witness_MemoryReportIsTheNonzeroWords : storeAhead.mem.wf ∧ (8, 0xAC01000C) ∈ memoryReport storeAhead := by
  decide

theorem witness_EqualWordsAreEqualMemories :
    (Memory.ofImage [0, 7]).wf ∧ (⟨2, [(1, 7)]⟩ : Memory).wf ∧ (Memory.ofImage [0, 7]).size = 2 ∧
    ∀ i, i < 2 → (Memory.ofImage [0, 7]).word i = (⟨2, [(1, 7)]⟩ : Memory).word i := by decide

end Sys2Proof.Tests
end

/-! ## The family 00_scope.md: words, parameters and the two ways out of an instruction -/

namespace Sys2Proof.Machine

/-! ### Effective addresses in integers (45_load_store.md R116) -/

/-- The effective address is the exact signed sum, modulo 2^32. -/
theorem effectiveAddress_toNat (s : State) (rs : RegIdx) (imm16 : BitVec 16) :
    ((effectiveAddress s rs imm16).toNat : Int) = ((s.reg rs).toInt + imm16.toInt) % 2 ^ 32 := by
  rw [effectiveAddress, add_sext32_toNat, ← toInt_emod, Int.emod_add_emod]

/-- An exact sum of a register and an immediate leaves the signed range by less than 2^15 on either side. -/
theorem reg_add_imm16_range (v : Word) (imm16 : BitVec 16) :
    -(2 ^ 31 + 2 ^ 15) ≤ v.toInt + imm16.toInt ∧ v.toInt + imm16.toInt < 2 ^ 31 + 2 ^ 15 := by
  have hv := v.le_toInt
  have hv' := v.toInt_lt
  have hi := imm16.le_toInt
  have hi' := imm16.toInt_lt
  omega

/-- The bounds check, in bytes: the address is below `4 * MEM_WORDS`. -/
theorem Memory.inBounds_iff_toNat (m : Memory) (a : Word) : m.inBounds a = true ↔ a.toNat < 4 * m.size := by
  rw [Memory.inBounds_iff, wordIndex, Nat.div_lt_iff_lt_mul (by decide), Nat.mul_comm]

/-- An effective address below 2^30 is the exact sum: a wrapped one would come from a sum below -(2^31 + 2^15). -/
theorem effectiveAddress_exact_of_lt {s : State} {rs : RegIdx} {imm16 : BitVec 16}
    (h : (effectiveAddress s rs imm16).toNat < 2 ^ 30) :
    ((effectiveAddress s rs imm16).toNat : Int) = (s.reg rs).toInt + imm16.toInt := by
  have hea := effectiveAddress_toNat s rs imm16
  obtain ⟨hlo, hhi⟩ := reg_add_imm16_range (s.reg rs) imm16
  omega

/-- Settles O35: an admitted array ends at or below 2^30, where effective addresses are exact, and an exact sum in
that range is its own residue. -/
theorem boundsCheckAgreesWithExactAddresses : Obligations.BoundsCheckAgreesWithExactAddresses := by
  intro s rs imm16 hsize
  rw [Memory.inBounds_iff_toNat]
  have hexact : (effectiveAddress s rs imm16).toNat < 4 * s.mem.size →
      ((effectiveAddress s rs imm16).toNat : Int) = (s.reg rs).toInt + imm16.toInt :=
    fun h => effectiveAddress_exact_of_lt (by omega)
  refine ⟨⟨fun h => ?_, fun ⟨hnonneg, hlt⟩ => ?_⟩, hexact⟩
  · have := hexact h
    omega
  · have := effectiveAddress_toNat s rs imm16
    omega

/-! ### What an instruction's own condition decides (60_exceptions.md R134, R136) -/

/-- An instruction with a condition of its own latches it and does nothing else. -/
theorem exec_of_raisesAt_some {i : Instr} {s : State} {c : FaultLatch} (h : raisesAt i s = some c) :
    exec i s = .next (raiseFault c s) := by
  cases i with
  | lw rs rt imm16 =>
    obtain ⟨hb, rfl⟩ : s.mem.size ≤ wordIndex (effectiveAddress s rs imm16) ∧
        .outOfBoundsAccess .load (effectiveAddress s rs imm16) = c := by
      simpa [raisesAt, Memory.inBounds] using h
    exact exec_lw_of_ge _ _ _ _ hb
  | sw rs rt imm16 =>
    obtain ⟨hb, rfl⟩ : s.mem.size ≤ wordIndex (effectiveAddress s rs imm16) ∧
        .outOfBoundsAccess .store (effectiveAddress s rs imm16) = c := by
      simpa [raisesAt, Memory.inBounds] using h
    exact exec_sw_of_ge _ _ _ _ hb
  | _ => exact nomatch h

/-- An instruction without a condition keeps the latch. -/
theorem exec_fault_of_raisesAt_none {i : Instr} {s t : State} (h : raisesAt i s = none)
    (he : exec i s = .next t) : t.fault = s.fault := by
  cases i with
  | lw rs rt imm16 =>
    have hb : wordIndex (effectiveAddress s rs imm16) < s.mem.size := by
      simpa [raisesAt, Memory.inBounds] using h
    obtain rfl := Host.Outcome.next.inj ((exec_lw_of_lt _ _ _ _ hb).symm.trans he)
    rfl
  | sw rs rt imm16 =>
    have hb : wordIndex (effectiveAddress s rs imm16) < s.mem.size := by
      simpa [raisesAt, Memory.inBounds] using h
    obtain rfl := Host.Outcome.next.inj ((exec_sw_of_lt _ _ _ _ hb).symm.trans he)
    rfl
  | _ =>
    obtain rfl := Host.Outcome.next.inj he
    rfl

/-- An instruction either keeps the latch or answers the state with only the latch replaced. -/
theorem exec_fault_cases {i : Instr} {s t : State} (he : exec i s = .next t) :
    t.fault = s.fault ∨ ∃ c, t = s.setFault c := by
  cases h : raisesAt i s with
  | none => exact .inl (exec_fault_of_raisesAt_none h he)
  | some c =>
    obtain rfl := Host.Outcome.next.inj ((exec_of_raisesAt_some h).symm.trans he)
    exact .inr ⟨_, raiseFault_eq c s⟩

/-- Settles O43: the fetch's and dispatch's conditions write the latch alone, and an instruction, which starts with
no fault latched, latches one only by doing the same. -/
theorem raisingIsPrecise : Obligations.RaisingIsPrecise := by
  intro s t hstep ht
  obtain ⟨-, hf, ⟨-, rfl⟩ | ⟨-, -, -, -, rfl⟩ | ⟨-, i, -, -, he⟩⟩ := step_cases hstep
  · rfl
  · rfl
  · rcases exec_fault_cases he with hkept | ⟨c, rfl⟩
    · exact absurd (hkept.trans hf) ht
    · rfl

/-! ### The parameters and their defaults (00_scope.md R3 to R5) -/

/-- Settles O6, each clause a closed computation on the default record. -/
theorem defaultParametersAreAdmitted : Obligations.DefaultParametersAreAdmitted := by
  have numerals : Config.numerals.wellFormed = true := by decide
  have size : memWordsWellFormed Config.defaultMemWords = true := by decide
  exact ⟨numerals, size, rfl, rfl, rfl, rfl⟩

/-- An image of zeros lists no cell. -/
theorem cellsFrom_replicate_zero (i n : Nat) : cellsFrom i (List.replicate n 0) = [] := by
  induction n generalizing i with
  | zero => rfl
  | succ n ih => rw [List.replicate_succ, cellsFrom_zero, ih]

/-- The memory of an image of zeros. -/
theorem Memory.ofImage_replicate_zero (n : Nat) :
    Memory.ofImage (List.replicate n 0) = { size := n, cells := [] } := by
  rw [Memory.ofImage, cellsFrom_replicate_zero, List.length_replicate]

/-- Settles O47: both are the initial state over the memory that lists no cell. -/
theorem resetIsTheBootOfTheZeroImage : Obligations.ResetIsTheBootOfTheZeroImage := by
  unfold Obligations.ResetIsTheBootOfTheZeroImage
  rw [State.boot, Memory.ofImage_replicate_zero]
  rfl

end Sys2Proof.Machine

/-! ## The family 10_state.md: what an instruction changes, and the good states -/

namespace Sys2Proof.Machine

/-! ### One tick of either counter table (10_state.md R16, R77) -/

/-- The entry of a key incremented, in the table the key names. -/
def State.tick (s : State) : CounterKey → State
  | .funct f => s.tickFunct f
  | .opcode o => s.tickOpcode o

@[simp] theorem State.tick_pc (s : State) (k : CounterKey) : (s.tick k).pc = s.pc := by cases k <;> rfl
@[simp] theorem State.tick_running (s : State) (k : CounterKey) : (s.tick k).running = s.running := by cases k <;> rfl
@[simp] theorem State.tick_mem (s : State) (k : CounterKey) : (s.tick k).mem = s.mem := by cases k <;> rfl
@[simp] theorem State.tick_reg (s : State) (k : CounterKey) (q : RegIdx) : (s.tick k).reg q = s.reg q := by
  cases k <;> rfl

@[simp] theorem State.tick_functCount (s : State) (k : CounterKey) (g : Code) :
    (s.tick k).functCount g = s.functCount g + (if k = .funct g then 1 else 0) := by
  cases k <;> simp [State.tick, eq_comm]

@[simp] theorem State.tick_opcodeCount (s : State) (k : CounterKey) (p : Code) :
    (s.tick k).opcodeCount p = s.opcodeCount p + (if k = .opcode p then 1 else 0) := by
  cases k <;> simp [State.tick, eq_comm]

theorem State.tick_setReg (s : State) (r : RegIdx) (v : Word) (k : CounterKey) :
    (s.setReg r v).tick k = (s.tick k).setReg r v := by cases k <;> rfl

/-- Every R-format instruction counts in one of the eight live entries of `count_funct`. -/
theorem mem_functs_of_counterOf {i : Instr} {f : Code} (h : counterOf i = .funct f) :
    f ∈ Config.numerals.functs := by
  cases i with
  | add | sub | and | or | slt | sll | srl | halt =>
    obtain rfl := CounterKey.funct.inj h
    decide
  | _ => exact nomatch h

/-- Every I- and J-format instruction counts in one of the ten live entries of `count_opcode`. -/
theorem mem_opcodes_of_counterOf {i : Instr} {o : Code} (h : counterOf i = .opcode o) :
    o ∈ Config.numerals.opJ :: Config.numerals.iOpcodes := by
  cases i with
  | add | sub | and | or | slt | sll | srl | halt => exact nomatch h
  | _ =>
    obtain rfl := CounterKey.opcode.inj h
    decide

/-! ### Everything an instruction that raises nothing can do -/

/-- Where a control transfer at `pc` can lead: the next instruction, a branch target, a jump target. -/
inductive TransferTarget (pc : Word) : Word → Prop where
  | next : TransferTarget pc (pc + 4)
  | branch (imm16 : BitVec 16) : TransferTarget pc (branchTarget pc imm16)
  | jump (address : BitVec 26) : TransferTarget pc (jumpTarget pc address)

theorem TransferTarget.aligned {pc target : Word} (ht : TransferTarget pc target) (h : pc.toNat % 4 = 0) :
    target.toNat % 4 = 0 := by
  cases ht with
  | next => exact add_four_aligned h
  | branch imm16 => exact branchTarget_aligned h imm16
  | jump address => exact jumpTarget_aligned pc address

/-- The four shapes of the state after an instruction that raises nothing: a register written, control transferred,
a word stored, the machine halted. Each counts the instruction's own entry. -/
inductive Completes (i : Instr) (s : State) : State → Prop where
  | write (d : RegIdx) (v : Word) (hd : destOf i = some d) :
      Completes i s (((s.setReg d v).advancePc).tick (counterOf i))
  | transfer (target : Word) (ht : TransferTarget s.pc target) :
      Completes i s ((s.setPc target).tick (counterOf i))
  | store (rs rt : RegIdx) (imm16 : BitVec 16) (m : Memory) (hi : i = .sw rs rt imm16)
      (hm : s.mem.store (effectiveAddress s rs imm16) (s.reg rt) = some m) :
      Completes i s (((s.setMem m).advancePc).tick (counterOf i))
  | halt (rs rt rd shamt : BitVec 5) (hi : i = .halt rs rt rd shamt) :
      Completes i s (s.clearRunning.tick (counterOf i))

theorem raisesAt_lw_eq_none {rs rt : RegIdx} {imm16 : BitVec 16} {s : State} :
    raisesAt (.lw rs rt imm16) s = none ↔ wordIndex (effectiveAddress s rs imm16) < s.mem.size := by
  simp [raisesAt, Memory.inBounds]

theorem raisesAt_sw_eq_none {rs rt : RegIdx} {imm16 : BitVec 16} {s : State} :
    raisesAt (.sw rs rt imm16) s = none ↔ wordIndex (effectiveAddress s rs imm16) < s.mem.size := by
  simp [raisesAt, Memory.inBounds]

/-- The inversion lemma of `exec`, away from its two conditions. -/
theorem exec_completes {i : Instr} {s t : State} (h : raisesAt i s = none) (he : exec i s = .next t) :
    Completes i s t := by
  cases i with
  | add | sub | and | or | slt | sll | srl | addi | andi | ori | slti | lui =>
    obtain rfl := Host.Outcome.next.inj he
    exact .write _ _ rfl
  | halt rs rt rd shamt =>
    obtain rfl := Host.Outcome.next.inj he
    exact .halt rs rt rd shamt rfl
  | beq rs rt imm16 =>
    by_cases heq : s.reg rs = s.reg rt
    · obtain rfl := Host.Outcome.next.inj ((exec_beq_of_eq _ _ _ _ heq).symm.trans he)
      exact .transfer _ (.branch imm16)
    · obtain rfl := Host.Outcome.next.inj ((exec_beq_of_ne _ _ _ _ heq).symm.trans he)
      exact .transfer _ .next
  | bne rs rt imm16 =>
    by_cases heq : s.reg rs = s.reg rt
    · obtain rfl := Host.Outcome.next.inj ((exec_bne_of_eq _ _ _ _ heq).symm.trans he)
      exact .transfer _ .next
    · obtain rfl := Host.Outcome.next.inj ((exec_bne_of_ne _ _ _ _ heq).symm.trans he)
      exact .transfer _ (.branch imm16)
  | lw rs rt imm16 =>
    obtain rfl := Host.Outcome.next.inj ((exec_lw_of_lt _ _ _ _ (raisesAt_lw_eq_none.mp h)).symm.trans he)
    exact .write _ _ rfl
  | sw rs rt imm16 =>
    have hlt := raisesAt_sw_eq_none.mp h
    obtain rfl := Host.Outcome.next.inj ((exec_sw_of_lt _ _ _ _ hlt).symm.trans he)
    exact .store rs rt imm16 _ rfl (Memory.store_of_lt _ hlt)
  | j address =>
    obtain rfl := Host.Outcome.next.inj he
    exact .transfer _ (.jump address)

/-- The only conditions of an instruction's own: LW and SW out of bounds (60_exceptions.md R134). -/
theorem raisesAt_eq_some {i : Instr} {s : State} {c : FaultLatch} (h : raisesAt i s = some c) :
    (∃ rs rt imm16, i = .lw rs rt imm16 ∧ s.mem.load (effectiveAddress s rs imm16) = none ∧
      c = .outOfBoundsAccess .load (effectiveAddress s rs imm16)) ∨
    (∃ rs rt imm16, i = .sw rs rt imm16 ∧ s.mem.load (effectiveAddress s rs imm16) = none ∧
      c = .outOfBoundsAccess .store (effectiveAddress s rs imm16)) := by
  cases i with
  | lw rs rt imm16 =>
    refine .inl ⟨rs, rt, imm16, rfl, ?_⟩
    rw [Memory.load_eq_none]
    simpa [raisesAt, Memory.inBounds, eq_comm] using h
  | sw rs rt imm16 =>
    refine .inr ⟨rs, rt, imm16, rfl, ?_⟩
    rw [Memory.load_eq_none]
    simpa [raisesAt, Memory.inBounds, eq_comm] using h
  | _ => exact nomatch h

/-! ### Every step either latches a true condition or completes its instruction -/

/-- An instruction's own condition, once latched, tells the truth about the word at `pc`. -/
theorem stopExplained_of_raisesAt {s : State} {w : Word} {i : Instr} {c : FaultLatch} (hr : s.running = true)
    (hw : fetchWord s = some w) (hd : decodeInstr w = .ok i) (h : raisesAt i s = some c) :
    StopExplained (s.setFault c) := by
  rcases raisesAt_eq_some h with ⟨rs, rt, imm16, rfl, hb, rfl⟩ | ⟨rs, rt, imm16, rfl, hb, rfl⟩
  · exact ⟨hr, hb, w, rs, rt, imm16, hw, hd, rfl⟩
  · exact ⟨hr, hb, w, rs, rt, imm16, hw, hd, rfl⟩

/-- The two ways out of a step. -/
theorem step_latches_or_completes {s t : State} (h : step s = .next t) :
    (∃ c, t = s.setFault c ∧ StopExplained t) ∨
    ∃ w i, fetchWord s = some w ∧ decodeInstr w = .ok i ∧ Completes i s t ∧ t.fault = .none := by
  obtain ⟨hr, hf, ⟨hw, rfl⟩ | ⟨w, u, hw, hd, rfl⟩ | ⟨w, i, hw, hd, he⟩⟩ := step_cases h
  · exact .inl ⟨_, rfl, hr, rfl, hw⟩
  · exact .inl ⟨_, rfl, hr, w, hw, hd⟩
  · cases hc : raisesAt i s with
    | none =>
      exact .inr ⟨w, i, hw, hd, exec_completes hc he, (exec_fault_of_raisesAt_none hc he).trans hf⟩
    | some c =>
      obtain rfl := Host.Outcome.next.inj ((exec_of_raisesAt_some hc).symm.trans he)
      rw [raiseFault_of_none hf]
      exact .inl ⟨c, rfl, stopExplained_of_raisesAt hr hw hd hc⟩

/-! ### What a completed instruction keeps -/

section
variable {i : Instr} {s t : State}

theorem Completes.mem_size (h : Completes i s t) : t.mem.size = s.mem.size := by
  cases h with
  | store rs rt imm16 m hi hm => simpa using Memory.store_size hm
  | _ => simp

theorem Completes.mem_wf (h : Completes i s t) (hwf : s.mem.wf) : t.mem.wf := by
  cases h with
  | store rs rt imm16 m hi hm => simpa using Memory.wf_store hwf hm
  | _ => simpa using hwf

theorem Completes.pc_aligned (h : Completes i s t) (hpc : s.pc.toNat % 4 = 0) : t.pc.toNat % 4 = 0 := by
  cases h with
  | write | store => simpa using add_four_aligned hpc
  | transfer target ht => simpa using ht.aligned hpc
  | halt => simpa using hpc

theorem Completes.functCount (h : Completes i s t) (f : Code) :
    t.functCount f = s.functCount f + (if counterOf i = .funct f then 1 else 0) := by
  cases h <;> simp

theorem Completes.opcodeCount (h : Completes i s t) (o : Code) :
    t.opcodeCount o = s.opcodeCount o + (if counterOf i = .opcode o then 1 else 0) := by
  cases h <;> simp

theorem Completes.staticInv (h : Completes i s t) (hs : StaticInv s) : StaticInv t where
  memWf := h.mem_wf hs.memWf
  sizeAdmitted := h.mem_size ▸ hs.sizeAdmitted
  pcAligned := h.pc_aligned hs.pcAligned

theorem Completes.counterInv (h : Completes i s t) (hs : CounterInv s) : CounterInv t where
  functs f hf := by
    rw [h.functCount, hs.functs f hf, if_neg fun e => hf (mem_functs_of_counterOf e)]
  opcodes o ho := by
    rw [h.opcodeCount, hs.opcodes o ho, if_neg fun e => ho (mem_opcodes_of_counterOf e)]

/-- Only HALT clears `running`, and it leaves `pc` and the memory, so the fetch at its `pc` still finds it. -/
theorem Completes.stopExplained {w : Word} (h : Completes i s t) (hr : s.running = true)
    (hw : fetchWord s = some w) (hd : decodeInstr w = .ok i) (hf : t.fault = .none) : StopExplained t := by
  rw [StopExplained, hf]
  cases h with
  | halt rs rt rd shamt hi =>
    exact .inr ⟨w, rs, rt, rd, shamt, by simpa [fetchWord] using hw, hi ▸ hd⟩
  | _ => exact .inl (by simpa using hr)

end

/-- Settles O50: a step that latches changes nothing else and latches the truth; one that completes its instruction
keeps each clause of the invariant by the shape the instruction has. -/
theorem stepKeepsGoodStates : Obligations.StepKeepsGoodStates := by
  intro s t ⟨hstatic, hcounters, _⟩ hstep
  obtain ⟨hr, -⟩ := step_cases hstep
  rcases step_latches_or_completes hstep with ⟨c, rfl, hstop⟩ | ⟨w, i, hw, hd, hc, hf⟩
  · obtain ⟨hwf, hsize, hpc⟩ := hstatic
    exact ⟨⟨⟨hwf, hsize, hpc⟩, ⟨hcounters.functs, hcounters.opcodes⟩, hstop⟩, rfl⟩
  · exact ⟨⟨hc.staticInv hstatic, hc.counterInv hcounters, hc.stopExplained hr hw hd hf⟩, hc.mem_size⟩

end Sys2Proof.Machine

/-! ## The family 10_state.md: reset, runs, memory, the program counter and the registers -/

namespace Sys2Proof.Machine

/-! ### The reset state (10_state.md R24) -/

section
variable (mem : Memory)

@[simp] theorem State.initial_reg (r : RegIdx) : (State.initial mem).reg r = 0 := by
  simp [State.initial, State.reg]

@[simp] theorem State.initial_functCount (f : Code) : (State.initial mem).functCount f = 0 := by
  simp [State.initial, State.functCount]

@[simp] theorem State.initial_opcodeCount (o : Code) : (State.initial mem).opcodeCount o = 0 := by
  simp [State.initial, State.opcodeCount]

end

/-- The reset state over a canonical memory of an admitted size is good. -/
theorem inv_initial {mem : Memory} (hwf : mem.wf) (hsize : memWordsWellFormed mem.size = true) :
    Inv (State.initial mem) where
  static := ⟨hwf, hsize, rfl⟩
  counters := ⟨fun f _ => State.initial_functCount mem f, fun o _ => State.initial_opcodeCount mem o⟩
  stop := .inl rfl

/-- Settles O48: the reset memory lists no cell and has the default size. -/
theorem resetStateIsGood : Obligations.ResetStateIsGood :=
  inv_initial Memory.wf_reset (by decide)

/-- Settles O49: the memory of an image is canonical, and an admitted image has an admitted length. -/
theorem bootStateIsGood : Obligations.BootStateIsGood :=
  fun image himage => inv_initial (Memory.wf_ofImage image) himage

/-- Settles O46: `clock` with reset answers the boot state and does not read the old one. -/
theorem resetGivesTheResetState : Obligations.ResetGivesTheResetState := by
  rintro image s _ rfl
  let mem := Memory.ofImage image
  exact ⟨State.initial_reg mem, rfl, rfl, State.initial_functCount mem, State.initial_opcodeCount mem, rfl,
    Memory.word_ofImage image, rfl⟩

/-! ### Runs (40_decoder_and_cycle.md R81) -/

section
variable {M : Host.Core} {k : Nat} {s t : M.State}

/-- A run of `k + 1` steps is a step and a run of `k`. -/
theorem run_succ_eq_next : M.run (k + 1) s = .next t ↔ ∃ u, M.step s = .next u ∧ M.run k u = .next t := by
  rw [Host.Core.run]
  cases M.step s <;> simp

/-- What every step keeps, every run keeps. -/
theorem run_keeps {P : M.State → Prop} (hstep : ∀ s t, P s → M.step s = .next t → P t) (hs : P s)
    (hrun : M.run k s = .next t) : P t := by
  induction k generalizing s with
  | zero =>
    obtain rfl := Host.Outcome.next.inj hrun
    exact hs
  | succ k ih =>
    obtain ⟨u, hu, hrun⟩ := run_succ_eq_next.mp hrun
    exact ih (hstep s u hs hu) hrun

end

/-- Settles O51: the boot state is good, and every step keeps that and the size of the memory. -/
theorem reachableStatesAreGood : Obligations.ReachableStatesAreGood := by
  intro image k t himage hrun
  refine run_keeps (M := Sys2Proof.core) (P := fun u : State => Inv u ∧ u.mem.size = image.length)
    (fun s u ⟨hs, hsize⟩ hstep => ?_) ⟨bootStateIsGood image himage, rfl⟩ hrun
  obtain ⟨hu, hkept⟩ := stepKeepsGoodStates s u hs hstep
  exact ⟨hu, hkept.trans hsize⟩

/-! ### Memory (10_state.md R19) -/

/-- Settles O45: of the ways out of a step only a completed store replaces the memory, and it changes one word. -/
theorem memoryChangesOnlyByStores : Obligations.MemoryChangesOnlyByStores := by
  intro s t a hstep hne
  rcases step_latches_or_completes hstep with ⟨c, rfl, -⟩ | ⟨w, i, hw, hd, hc, -⟩
  · exact absurd rfl hne
  · cases hc with
    | store rs rt imm16 m hi hm =>
      subst hi
      have hload : m.load a = _ := Memory.load_store hm a
      simp only [State.tick_mem, State.advancePc_mem, State.setMem_mem] at hne ⊢
      by_cases ha : wordIndex a = wordIndex (effectiveAddress s rs imm16)
      · exact ⟨w, rs, rt, imm16, hw, hd, ha, by rw [hload, if_pos ha]⟩
      · exact absurd (by rw [hload, if_neg ha]) hne
    | _ => simp at hne

/-- In a canonical memory the listed cells are exactly the words that are not 0. -/
theorem mem_cells_iff {cells : List (Nat × Word)} (hs : cells.Pairwise fun a b => a.1 < b.1)
    (hv : ∀ c ∈ cells, c.2 ≠ unlistedWord) (i : Nat) (v : Word) :
    (i, v) ∈ cells ↔ v ≠ 0 ∧ lookupWord cells i = v := by
  induction cells with
  | nil => exact ⟨fun h => (nomatch h), fun ⟨hne, h⟩ => absurd h.symm hne⟩
  | cons c rest ih =>
    obtain ⟨k, w⟩ := c
    obtain ⟨hlt, hrest⟩ := List.pairwise_cons.mp hs
    have ih := ih hrest fun c hc => hv c (List.mem_cons_of_mem _ hc)
    have hw : w ≠ 0 := hv _ List.mem_cons_self
    rw [List.mem_cons, Prod.mk.injEq, lookupWord]
    by_cases hk : k = i
    · have hnot : (i, v) ∉ rest := fun hmem => absurd (hlt _ hmem) (by omega)
      rw [if_pos hk]
      constructor
      · rintro (⟨-, rfl⟩ | hmem)
        · exact ⟨hw, rfl⟩
        · exact absurd hmem hnot
      · rintro ⟨-, rfl⟩
        exact .inl ⟨hk.symm, rfl⟩
    · rw [if_neg hk, ← ih]
      exact or_iff_right fun h => hk h.1.symm

/-- No canonical memory lists a word outside its array. -/
theorem Memory.word_of_ge {m : Memory} (h : m.wf) {i : Nat} (hi : m.size ≤ i) : m.word i = 0 :=
  lookupWord_of_fst_ne fun c hc => by have := (h.2 c hc).2; omega

/-- Two lists of cells in rising order with the same members are equal. -/
theorem cells_eq_of_mem_iff {cells cells' : List (Nat × Word)} (hs : cells.Pairwise fun a b => a.1 < b.1)
    (hs' : cells'.Pairwise fun a b => a.1 < b.1) (h : ∀ c, c ∈ cells ↔ c ∈ cells') : cells = cells' := by
  have hne : ∀ {a b : Nat × Word}, a.1 < b.1 → a ≠ b := by
    rintro a b hab rfl
    exact Nat.lt_irrefl _ hab
  have hperm := (List.perm_ext_iff_of_nodup (hs.imp hne) (hs'.imp hne)).mpr h
  exact hperm.eq_of_pairwise (fun a b _ _ hab hba => absurd hab (Nat.lt_asymm hba)) hs hs'

/-- Settles O57: equal words list equal cells, and rising order leaves one way to list them. -/
theorem equalWordsAreEqualMemories : Obligations.EqualWordsAreEqualMemories := by
  rintro ⟨size, cells⟩ ⟨_, cells'⟩ hm hm' rfl hword
  have ⟨hs, hv⟩ := hm
  have ⟨hs', hv'⟩ := hm'
  have hall : ∀ i, lookupWord cells i = lookupWord cells' i := fun i => by
    by_cases hi : i < size
    · exact hword i hi
    · have hi : size ≤ i := Nat.le_of_not_lt hi
      exact (Memory.word_of_ge hm hi).trans (Memory.word_of_ge hm' hi).symm
  obtain rfl : cells = cells' := cells_eq_of_mem_iff hs hs' fun ⟨i, v⟩ => by
    rw [mem_cells_iff hs (fun c hc => (hv c hc).1), mem_cells_iff hs' (fun c hc => (hv' c hc).1), hall]
  rfl

/-! ### The program counter (10_state.md R14) -/

/-- Settles O36: the exact target lies within 2^17 of an address below 2^30, so its residue modulo 2^32 is itself, or
it is negative and the residue at least 2^32 - 2^17. -/
theorem branchTargetsWrapOnlyOutOfBounds : Obligations.BranchTargetsWrapOnlyOutOfBounds := by
  intro s imm16 hsize hpc
  rw [Memory.inBounds_iff_toNat] at hpc ⊢
  have htarget := branchTarget_toNat s.pc imm16
  have hlo := imm16.le_toInt
  have hhi := imm16.toInt_lt
  rcases lt_or_ge ((s.pc.toNat : Int) + 4 + 4 * imm16.toInt) 0 with hneg | hnonneg
  · have hwrapped : ((branchTarget s.pc imm16).toNat : Int) = s.pc.toNat + 4 + 4 * imm16.toInt + 2 ^ 32 := by omega
    omega
  · have hexact : ((branchTarget s.pc imm16).toNat : Int) = s.pc.toNat + 4 + 4 * imm16.toInt := by omega
    omega

/-- Settles O37: a fetch succeeds only below `4 * MEM_WORDS`, which is at most 2^30, and at most 2^28 where
`MEM_WORDS` is at most 2^26: then the region bits of `pc` are 0. -/
theorem fetchedPcIsSmall : Obligations.FetchedPcIsSmall := by
  intro s w hsize hfetch
  have hmax : s.mem.size ≤ 2 ^ 28 := by
    simp only [memWordsWellFormed, Bool.and_eq_true, decide_eq_true_eq] at hsize
    exact hsize.2
  obtain ⟨hpc, -⟩ := Memory.load_eq_some.mp hfetch
  have hpc : s.pc.toNat < 4 * s.mem.size :=
    (Memory.inBounds_iff_toNat _ _).mp ((Memory.inBounds_iff _ _).mpr hpc)
  refine ⟨hpc, by omega, ?_, fun hsmall address => ?_⟩
  · rw [BitVec.toNat_add, show (4 : Word).toNat = 4 from rfl]
    omega
  · rw [jumpTarget_toNat]
    omega

/-! ### Registers (10_state.md R10) -/

/-- Two halfwords put together: the operand of ORI after that of LUI. -/
theorem upperImmediate_or_zext32 (hi lo : BitVec 16) : upperImmediate hi ||| zext32 lo = hi ++ lo := by
  refine BitVec.eq_of_toNat_eq ?_
  rw [BitVec.toNat_or, upperImmediate_toNat, zext32_toNat, BitVec.toNat_append, Nat.shiftLeft_eq]

/-- Settles O39: LUI sets the high half and clears the low one, ORI sets the low one. -/
theorem everyRegisterCanHoldEveryValue : Obligations.EveryRegisterCanHoldEveryValue := by
  intro r v s
  have hv : v.extractLsb' 16 16 ++ v.extractLsb' 0 16 = v := by
    refine BitVec.eq_of_toNat_eq ?_
    have := v.isLt
    rw [append_toNat, BitVec.extractLsb'_toNat, BitVec.extractLsb'_toNat, Nat.shiftRight_eq_div_pow,
      Nat.shiftRight_zero]
    omega
  refine ⟨_, rfl, ?_, fun q hq => ?_⟩
  · simp [upperImmediate_or_zext32, hv]
  · simp [hq]

end Sys2Proof.Machine

/-! ## The family 10_state.md: the registers an instruction writes and reads (R12) -/

namespace Sys2Proof.Machine

/-- An instruction changes no register but its row's destination. -/
theorem exec_reg {i : Instr} {s t : State} (he : exec i s = .next t) {r : RegIdx} (hr : destOf i ≠ some r) :
    t.reg r = s.reg r := by
  cases h : raisesAt i s with
  | some c =>
    obtain rfl := Host.Outcome.next.inj ((exec_of_raisesAt_some h).symm.trans he)
    rw [raiseFault_eq]
    rfl
  | none =>
    cases exec_completes h he with
    | write d v hd =>
      have hne : r ≠ d := fun e => hr (e ▸ hd)
      simp [hne]
    | _ => simp

/-- Raising does not look at the registers. -/
theorem raiseFault_setReg (c : FaultLatch) (s : State) (r : RegIdx) (v : Word) :
    raiseFault c (s.setReg r v) = (raiseFault c s).setReg r v := by
  rw [raiseFault_eq, raiseFault_eq]
  rfl

section
variable {i : Instr} {s t : State} {r : RegIdx} {v : Word}

theorem reg_setReg_of_not_mem_readsOf (hr : r ∉ readsOf i) {q : RegIdx} (hq : q ∈ readsOf i) :
    (s.setReg r v).reg q = s.reg q := by
  rw [State.setReg_reg, if_neg fun e : q = r => hr (e ▸ hq)]

theorem effectiveAddress_setReg {rs : RegIdx} (h : (s.setReg r v).reg rs = s.reg rs) (imm16 : BitVec 16) :
    effectiveAddress (s.setReg r v) rs imm16 = effectiveAddress s rs imm16 := by
  rw [effectiveAddress, h, effectiveAddress]

/-- The condition an instruction raises depends on the registers its row reads alone. -/
theorem raisesAt_setReg (hr : r ∉ readsOf i) : raisesAt i (s.setReg r v) = raisesAt i s := by
  cases i with
  | lw rs | sw rs =>
    have hrs : (s.setReg r v).reg rs = s.reg rs := reg_setReg_of_not_mem_readsOf hr (by simp [readsOf])
    simp only [raisesAt, effectiveAddress_setReg hrs, State.setReg_mem]
  | _ => rfl

/-- The instruction, run with register `r` changed before, does as R12 says with the register after. -/
def RegisterUnread (i : Instr) (s t : State) (r : RegIdx) (v : Word) : Prop :=
  exec i (s.setReg r v) = .next (if destOf i = some r ∧ raisesAt i s = none then t else t.setReg r v)

/-- An instruction that writes the same value to its destination either way. -/
theorem registerUnread_of_write {d : RegIdx} {x x' : Word} (hd : destOf i = some d) (hn : raisesAt i s = none)
    (hs : exec i s = .next (((s.setReg d x).advancePc).tick (counterOf i)))
    (hs' : exec i (s.setReg r v) = .next ((((s.setReg r v).setReg d x').advancePc).tick (counterOf i)))
    (hx : x' = x) (he : exec i s = .next t) : RegisterUnread i s t r v := by
  subst hx
  obtain rfl := Host.Outcome.next.inj (hs.symm.trans he)
  rw [RegisterUnread, hs', hd]
  by_cases hdr : d = r
  · subst hdr
    rw [if_pos ⟨rfl, hn⟩, State.setReg_setReg]
  · rw [if_neg fun h => hdr (Option.some.inj h.1), State.setReg_comm _ _ _ _ _ (Ne.symm hdr), ← State.tick_setReg]
    rfl

/-- An instruction without a destination that keeps the change. -/
theorem registerUnread_of_keep (hd : destOf i = none)
    (hs' : exec i (s.setReg r v) = .next (t.setReg r v)) : RegisterUnread i s t r v := by
  rw [RegisterUnread, hs', hd, if_neg fun h => nomatch h.1]

/-- A control transfer to the same target either way. -/
theorem registerUnread_of_transfer {p p' : Word} (hd : destOf i = none)
    (hs : exec i s = .next ((s.setPc p).tick (counterOf i)))
    (hs' : exec i (s.setReg r v) = .next (((s.setReg r v).setPc p').tick (counterOf i)))
    (hp : p' = p) (he : exec i s = .next t) : RegisterUnread i s t r v := by
  subst hp
  obtain rfl := Host.Outcome.next.inj (hs.symm.trans he)
  refine registerUnread_of_keep hd ?_
  rw [hs', ← State.tick_setReg]
  rfl

/-- An instruction that raises leaves the change, its destination included. -/
theorem registerUnread_of_raises {c : FaultLatch} (hr : r ∉ readsOf i) (h : raisesAt i s = some c)
    (he : exec i s = .next t) : RegisterUnread i s t r v := by
  obtain rfl := Host.Outcome.next.inj ((exec_of_raisesAt_some h).symm.trans he)
  rw [RegisterUnread, exec_of_raisesAt_some ((raisesAt_setReg hr).trans h), raiseFault_setReg, h,
    if_neg fun h => nomatch h.2]

/-- The second half of R12, for an instruction that raises nothing. -/
theorem registerUnread_of_completes (hr : r ∉ readsOf i) (hn : raisesAt i s = none) (he : exec i s = .next t) :
    RegisterUnread i s t r v := by
  have hreg : ∀ q ∈ readsOf i, (s.setReg r v).reg q = s.reg q := fun q hq => reg_setReg_of_not_mem_readsOf hr hq
  have hn' : raisesAt i (s.setReg r v) = none := (raisesAt_setReg hr).trans hn
  cases i with
  | add rs rt | sub rs rt | and rs rt | or rs rt | slt rs rt =>
    refine registerUnread_of_write rfl hn rfl rfl ?_ he
    rw [hreg rs (by simp [readsOf]), hreg rt (by simp [readsOf])]
  | sll rs rt | srl rs rt =>
    refine registerUnread_of_write rfl hn rfl rfl ?_ he
    rw [hreg rt (by simp [readsOf])]
  | addi rs | andi rs | ori rs | slti rs =>
    refine registerUnread_of_write rfl hn rfl rfl ?_ he
    rw [hreg rs (by simp [readsOf])]
  | lui => exact registerUnread_of_write rfl hn rfl rfl rfl he
  | halt =>
    obtain rfl := Host.Outcome.next.inj he
    exact registerUnread_of_keep rfl rfl
  | beq rs rt | bne rs rt =>
    refine registerUnread_of_transfer rfl rfl rfl ?_ he
    rw [hreg rs (by simp [readsOf]), hreg rt (by simp [readsOf])]
    rfl
  | lw rs rt imm16 =>
    have hea := effectiveAddress_setReg (hreg rs (by simp [readsOf])) imm16
    refine registerUnread_of_write rfl hn (exec_lw_of_lt _ _ _ _ (raisesAt_lw_eq_none.mp hn))
      (exec_lw_of_lt _ _ _ _ (raisesAt_lw_eq_none.mp hn')) ?_ he
    rw [hea, State.setReg_mem]
  | sw rs rt imm16 =>
    have hea := effectiveAddress_setReg (hreg rs (by simp [readsOf])) imm16
    obtain rfl := Host.Outcome.next.inj ((exec_sw_of_lt _ _ _ _ (raisesAt_sw_eq_none.mp hn)).symm.trans he)
    refine registerUnread_of_keep rfl ?_
    rw [exec_sw_of_lt _ _ _ _ (raisesAt_sw_eq_none.mp hn'), hea, hreg rt (by simp [readsOf])]
    rfl
  | j => exact registerUnread_of_transfer rfl rfl rfl rfl he

end

/-- Settles O38: what is written is the destination's, and the state after differs as the state before did, since
every value, address and comparison of an instruction is made of the registers its row reads. -/
theorem registersAreReadAndWrittenAsTheTableSays : Obligations.RegistersAreReadAndWrittenAsTheTableSays := by
  refine ⟨fun i s t r he hne => ?_, fun i s t r v hr he => ?_⟩
  · by_contra hd
    exact hne (exec_reg he hd)
  · rcases Option.eq_none_or_eq_some (raisesAt i s) with hc | ⟨c, hc⟩
    · exact registerUnread_of_completes hr hc he
    · exact registerUnread_of_raises hr hc he

end Sys2Proof.Machine

/-! ## The family 20_memory.md -/

namespace Sys2Proof.Machine

/-! ### What a live state's step answers (40_decoder_and_cycle.md R75) -/

section
variable {s : State}

/-- A fetch outside the memory is the condition the step raises. -/
theorem step_of_fetchWord_eq_none (h : s.isLive) (hw : fetchWord s = none) :
    step s = .next (raiseFault (.outOfBoundsAccess .fetch s.pc) s) := by
  rw [step_of_live h.1 h.2, hw]
  rfl

/-- A fetched word that decodes is executed. -/
theorem step_of_decodeInstr_eq_ok {w : Word} {i : Instr} (h : s.isLive) (hw : fetchWord s = some w)
    (hd : decodeInstr w = .ok i) : step s = exec i s := by
  simp only [step_of_live h.1 h.2, hw, hd]

end

/-- Raising is precise (60_exceptions.md R136). -/
theorem onlyLatched_raiseFault (c : FaultLatch) (s : State) : OnlyLatched c s (raiseFault c s) := by
  rw [raiseFault_eq]
  exact ⟨rfl, rfl, rfl, fun _ => rfl, ⟨rfl, fun _ => rfl⟩, fun _ => rfl, fun _ => rfl⟩

/-- Settles O11: the fetch answers no word outside the memory, and raising writes the latch alone. -/
theorem fetchOutOfBoundsOnlyLatches : Obligations.FetchOutOfBoundsOnlyLatches := by
  intro s hlive hpc
  have hfetch : fetchWord s = none := Memory.load_eq_none.mpr hpc
  exact ⟨_, step_of_fetchWord_eq_none hlive hfetch, onlyLatched_raiseFault _ s⟩

/-! ### Loads and stores read only the word index of their address (20_memory.md R34) -/

/-- Settles O32: in bounds, what LW and SW answer is made of the word index of the effective address. -/
theorem lowTwoAddressBitsAreIgnored : Obligations.LowTwoAddressBitsAreIgnored := by
  intro s rs rt imm16 imm16' hsame hlt
  have hsame : wordIndex (effectiveAddress s rs imm16) = wordIndex (effectiveAddress s rs imm16') := hsame
  have hlt' : wordIndex (effectiveAddress s rs imm16') < s.mem.size := hsame ▸ hlt
  have hlw := exec_lw_of_lt rs rt imm16 s hlt
  have hsw := exec_sw_of_lt rs rt imm16 s hlt
  refine ⟨?_, ?_, _, _, hlw, rfl, ?_, hsw, rfl, ?_⟩
  · rw [hlw, hsame, exec_lw_of_lt rs rt imm16' s hlt']
  · rw [hsw, hsame, exec_sw_of_lt rs rt imm16' s hlt']
  · simp [wordIndex]
  · simp [wordIndex]

/-! ### One memory for instructions and data (20_memory.md R43) -/

/-- Settles O34: the store sets the word that the fetch at `pc + 4` reads, and leaves the machine live. -/
theorem storeIsSeenByTheNextFetch : Obligations.StoreIsSeenByTheNextFetch := by
  intro s w rs rt imm16 hlive hw hd hsame hpc
  have hsame : wordIndex (effectiveAddress s rs imm16) = wordIndex (s.pc + 4) := hsame
  have hlt : wordIndex (effectiveAddress s rs imm16) < s.mem.size := hsame ▸ hpc
  have hstep := (step_of_decodeInstr_eq_ok hlive hw hd).trans (exec_sw_of_lt rs rt imm16 s hlt)
  have hread := Memory.load_store (Memory.store_of_lt (s.reg rt) hlt) (s.pc + 4)
  rw [if_pos hsame.symm] at hread
  exact ⟨_, hstep, rfl, hread, fun _ => step_of_decodeInstr_eq_ok hlive hread⟩

end Sys2Proof.Machine

/-! ## The family 30_encoding.md: the two round trips and the opcode table -/

namespace Sys2Proof

/-! ### Dispatch as a search of a list (30_encoding.md R53, R60, R61) -/

/-- The instruction of the first row that carries `code`, or the rejection of `code` where none does. -/
def firstOf (fmt : Format) (code : Code) : List (Code × Instr) → Except Unsupported Instr
  | [] => .error ⟨fmt, code⟩
  | (c, i) :: rest => if code = c then .ok i else firstOf fmt code rest

/-- The codes that select an instruction of a format. -/
def Numerals.codes (n : Numerals) : Format → List Code
  | .r => n.functs
  | .i => n.iOpcodes
  | .j => [n.opJ]

/-- The field of a word that selects the instruction within a format: `funct` for R, the opcode for I and J. -/
def selectorOf (w : Word) : Format → Code
  | .r => functOf w
  | .i => opcodeOf w
  | .j => opcodeOf w

/-- The instructions of a format with the fields of `w`, each under the code that selects it. -/
def candidates (n : Numerals) (w : Word) : Format → List (Code × Instr)
  | .r =>
    [(n.functAdd, .add (rsOf w) (rtOf w) (rdOf w) (shamtOf w)),
     (n.functSub, .sub (rsOf w) (rtOf w) (rdOf w) (shamtOf w)),
     (n.functAnd, .and (rsOf w) (rtOf w) (rdOf w) (shamtOf w)),
     (n.functOr, .or (rsOf w) (rtOf w) (rdOf w) (shamtOf w)),
     (n.functSlt, .slt (rsOf w) (rtOf w) (rdOf w) (shamtOf w)),
     (n.functSll, .sll (rsOf w) (rtOf w) (rdOf w) (shamtOf w)),
     (n.functSrl, .srl (rsOf w) (rtOf w) (rdOf w) (shamtOf w)),
     (n.functHalt, .halt (rsOf w) (rtOf w) (rdOf w) (shamtOf w))]
  | .i =>
    [(n.opAddi, .addi (rsOf w) (rtOf w) (imm16Of w)),
     (n.opAndi, .andi (rsOf w) (rtOf w) (imm16Of w)),
     (n.opOri, .ori (rsOf w) (rtOf w) (imm16Of w)),
     (n.opSlti, .slti (rsOf w) (rtOf w) (imm16Of w)),
     (n.opLui, .lui (rsOf w) (rtOf w) (imm16Of w)),
     (n.opBeq, .beq (rsOf w) (rtOf w) (imm16Of w)),
     (n.opBne, .bne (rsOf w) (rtOf w) (imm16Of w)),
     (n.opLw, .lw (rsOf w) (rtOf w) (imm16Of w)),
     (n.opSw, .sw (rsOf w) (rtOf w) (imm16Of w))]
  | .j => [(n.opJ, .j (addressOf w))]

section
variable {fmt : Format} {code : Code} {i : Instr} {u : Unsupported} {rows : List (Code × Instr)}

theorem mem_of_firstOf_eq_ok (h : firstOf fmt code rows = .ok i) : (code, i) ∈ rows := by
  induction rows with
  | nil => exact nomatch h
  | cons row rest ih =>
    by_cases hc : code = row.1
    · obtain rfl : row.2 = i := by simpa [firstOf, hc] using h
      simp [hc]
    · exact List.mem_cons_of_mem _ (ih (by simpa [firstOf, hc] using h))

theorem firstOf_of_mem (hnodup : (rows.map Prod.fst).Nodup) (h : (code, i) ∈ rows) :
    firstOf fmt code rows = .ok i := by
  induction rows with
  | nil => exact nomatch h
  | cons row rest ih =>
    obtain ⟨hfresh, hrest⟩ := List.nodup_cons.mp hnodup
    rcases List.mem_cons.mp h with rfl | hmem
    · exact if_pos rfl
    · have hc : code ≠ row.1 := fun hc => hfresh (hc ▸ List.mem_map_of_mem hmem)
      exact (if_neg hc).trans (ih hrest hmem)

theorem firstOf_eq_error : firstOf fmt code rows = .error u ↔ code ∉ rows.map Prod.fst ∧ u = ⟨fmt, code⟩ := by
  induction rows with
  | nil => simp [firstOf, eq_comm]
  | cons row rest ih => by_cases hc : code = row.1 <;> simp [firstOf, hc, ih]

end

/-- Decode and dispatch search the instructions of the word's format for its selector. -/
theorem decodeWith_eq_firstOf (n : Numerals) (w : Word) :
    decodeWith n w =
      firstOf (formatOf (opcodeOf w)) (selectorOf w (formatOf (opcodeOf w)))
        (candidates n w (formatOf (opcodeOf w))) := by
  rw [decodeWith_eq]
  cases formatOf (opcodeOf w) <;> rfl

@[simp] theorem candidates_map_fst (n : Numerals) (w : Word) (fmt : Format) :
    (candidates n w fmt).map Prod.fst = n.codes fmt := by
  cases fmt <;> rfl

/-- The rejected words: those whose selector is no code of their format, under any numerals (R61, R131). -/
theorem decodeWith_eq_error {n : Numerals} {w : Word} {fmt : Format} (hfmt : formatOf (opcodeOf w) = fmt)
    {u : Unsupported} :
    decodeWith n w = .error u ↔ selectorOf w fmt ∉ n.codes fmt ∧ u = ⟨fmt, selectorOf w fmt⟩ := by
  rw [decodeWith_eq_firstOf, firstOf_eq_error, candidates_map_fst, hfmt]

/-! ### Decode of encode (30_encoding.md R66) -/

/-- The format of an instruction (R53, R60). -/
def Instr.format : Instr → Format
  | .add _ _ _ _ | .sub _ _ _ _ | .and _ _ _ _ | .or _ _ _ _ | .slt _ _ _ _ | .sll _ _ _ _ | .srl _ _ _ _
  | .halt _ _ _ _ => .r
  | .addi _ _ _ | .andi _ _ _ | .ori _ _ _ | .slti _ _ _ | .lui _ _ _ | .beq _ _ _ | .bne _ _ _ | .lw _ _ _
  | .sw _ _ _ => .i
  | .j _ => .j

section
variable {n : Numerals}

/-- The constraints on the numerals (00_scope.md R5), in terms of the formats their opcodes select. -/
theorem Numerals.wellFormed_iff :
    n.wellFormed = true ↔
      n.functs.Nodup ∧ n.iOpcodes.Nodup ∧ (∀ op ∈ n.iOpcodes, formatOf op = .i) ∧ formatOf n.opJ = .j := by
  simp [Numerals.wellFormed, Numerals.functsDistinct, Numerals.iOpcodesDistinct, Numerals.iOpcodesAreIFormat,
    Numerals.opJIsJFormat, formatOf_eq_i, formatOf_eq_j, and_assoc]

theorem Numerals.codes_nodup (h : n.wellFormed = true) (fmt : Format) : (n.codes fmt).Nodup := by
  obtain ⟨hfuncts, hiOpcodes, -, -⟩ := Numerals.wellFormed_iff.mp h
  cases fmt with
  | r => exact hfuncts
  | i => exact hiOpcodes
  | j => exact List.nodup_singleton _

/-- The opcode of an encoded instruction selects the instruction's own format. -/
theorem formatOf_encodeWith (h : n.wellFormed = true) (i : Instr) :
    formatOf (opcodeOf (encodeWith n i)) = i.format := by
  obtain ⟨-, -, hI, hJ⟩ := Numerals.wellFormed_iff.mp h
  cases i with
  | add | sub | and | or | slt | sll | srl | halt => exact congrArg formatOf (opcodeOf_packR ..)
  | j => exact (congrArg formatOf (opcodeOf_packJ ..)).trans hJ
  | _ =>
    refine (congrArg formatOf (opcodeOf_packI ..)).trans (hI _ ?_)
    simp [Numerals.iOpcodes]

/-- An instruction is among the candidates of its own word, under that word's selector. -/
theorem mem_candidates_encodeWith (n : Numerals) (i : Instr) :
    (selectorOf (encodeWith n i) i.format, i) ∈ candidates n (encodeWith n i) i.format := by
  cases i <;> simp [Instr.format, selectorOf, candidates, encodeWith]

end

/-- Settles O4: the encoded word is of the instruction's format, where the codes are distinct, and the instruction
stands there under the word's selector. -/
theorem decodeOfEncodeUnderAllNumerals : Obligations.DecodeOfEncodeUnderAllNumerals := by
  intro n i hn
  rw [decodeWith_eq_firstOf, formatOf_encodeWith hn]
  refine firstOf_of_mem ?_ (mem_candidates_encodeWith n i)
  rw [candidates_map_fst]
  exact Numerals.codes_nodup hn i.format

/-! ### Encode of decode (30_encoding.md R66) -/

section
variable (n : Numerals) (w : Word)

theorem encodeWith_candidates_r :
    ∀ p ∈ candidates n w .r, encodeWith n p.2 = packR 0 (rsOf w) (rtOf w) (rdOf w) (shamtOf w) p.1 := by
  simp [candidates, encodeWith]

theorem encodeWith_candidates_i :
    ∀ p ∈ candidates n w .i, encodeWith n p.2 = packI p.1 (rsOf w) (rtOf w) (imm16Of w) := by
  simp [candidates, encodeWith]

theorem encodeWith_candidates_j : ∀ p ∈ candidates n w .j, encodeWith n p.2 = packJ p.1 (addressOf w) := by
  simp [candidates, encodeWith]

end

/-- Settles O5: the decoded instruction carries every field of the word but its selector, under which it was found. -/
theorem encodeOfDecodeUnderAllNumerals : Obligations.EncodeOfDecodeUnderAllNumerals := by
  intro n w i h
  rw [decodeWith_eq_firstOf] at h
  have hmem := mem_of_firstOf_eq_ok h
  cases hfmt : formatOf (opcodeOf w) with
  | r =>
    rw [hfmt] at hmem
    refine (encodeWith_candidates_r n w _ hmem).trans ?_
    rw [← formatOf_eq_r.mp hfmt]
    exact packR_fields w
  | i =>
    rw [hfmt] at hmem
    exact (encodeWith_candidates_i n w _ hmem).trans (packI_fields w)
  | j =>
    rw [hfmt] at hmem
    exact (encodeWith_candidates_j n w _ hmem).trans (packJ_fields w)

/-! ### The Decoder's own round trip (30_encoding.md R66; 40_decoder_and_cycle.md R70) -/

/-- Settles O3: the packed opcode keeps the tag, and each field of the packed word is the one packed. -/
theorem decodedFieldsRoundTrip : Obligations.DecodedFieldsRoundTrip := by
  intro d hd
  cases d with
  | r opcode rs rt rd shamt funct =>
    have hfmt : formatOf opcode = .r := by simpa [Decoded.wellFormed] using hd
    rw [Decoded.reencode, decode_of_r (by rwa [opcodeOf_packR])]
    simp
  | i opcode rs rt immediate =>
    obtain ⟨hfmt, himm⟩ : formatOf opcode = .i ∧ immediate = extendImmediate (rawImmediate immediate) := by
      simpa [Decoded.wellFormed] using hd
    rw [Decoded.reencode, decode_of_i (by rwa [opcodeOf_packI])]
    simp [← himm]
  | j opcode address =>
    have hfmt : formatOf opcode = .j := by simpa [Decoded.wellFormed] using hd
    rw [Decoded.reencode, decode_of_j (by rwa [opcodeOf_packJ])]
    simp

/-! ### The rows of the opcode table (30_encoding.md R53, R60, R62) -/

/-- The masks and values of the table are those of the default numerals, in their order. -/
theorem opcodeTable_masks_bits :
    opcodeTable.map (fun row => (row.mask, row.bits)) =
      Config.numerals.functs.map (fun f => (0xFC00003F, (0 : Code) ++ (0 : BitVec 20) ++ f)) ++
        (Config.numerals.iOpcodes ++ [Config.numerals.opJ]).map (fun op => (0xFC000000, op ++ (0 : BitVec 26))) := by
  decide

/-- The words of some row: opcode 0 with one of the eight functs, or one of the ten other opcodes. -/
theorem exists_row_iff_fields (w : Word) :
    (∃ row ∈ opcodeTable, w &&& row.mask = row.bits) ↔
      (opcodeOf w = 0 ∧ functOf w ∈ Config.numerals.functs) ∨
        opcodeOf w ∈ Config.numerals.iOpcodes ++ [Config.numerals.opJ] := by
  calc (∃ row ∈ opcodeTable, w &&& row.mask = row.bits)
      ↔ ∃ p ∈ opcodeTable.map (fun row => (row.mask, row.bits)), w &&& p.1 = p.2 := by simp
    _ ↔ (∃ f ∈ Config.numerals.functs, opcodeOf w = 0 ∧ functOf w = f) ∨
          ∃ op ∈ Config.numerals.iOpcodes ++ [Config.numerals.opJ], opcodeOf w = op := by
        rw [opcodeTable_masks_bits]
        simp only [List.mem_append (s := List.map _ _), List.mem_map, or_and_right, exists_or,
          exists_exists_and_eq_and, and_maskR_eq, and_maskI_eq]
    _ ↔ _ := by simp only [and_left_comm, exists_and_left, exists_eq_right']

/-- The words of some row are those whose selector is a code of their format. -/
theorem exists_row_iff_selector {w : Word} {fmt : Format} (hfmt : formatOf (opcodeOf w) = fmt) :
    (∃ row ∈ opcodeTable, w &&& row.mask = row.bits) ↔ selectorOf w fmt ∈ Config.numerals.codes fmt := by
  rw [exists_row_iff_fields]
  cases fmt with
  | r =>
    have hop : opcodeOf w = 0 := formatOf_eq_r.mp hfmt
    have hothers : opcodeOf w ∉ Config.numerals.iOpcodes ++ [Config.numerals.opJ] := by rw [hop]; decide
    rw [or_iff_left hothers, and_iff_right hop]
    rfl
  | i =>
    obtain ⟨h0, h2, -⟩ := formatOf_eq_i.mp hfmt
    have hJ : opcodeOf w ∉ [Config.numerals.opJ] := mt List.mem_singleton.mp h2
    rw [or_iff_right (mt And.left h0), List.mem_append, or_iff_left hJ]
    rfl
  | j =>
    have hop := formatOf_eq_j.mp hfmt
    have h0 : opcodeOf w ≠ 0 := by rcases hop with h | h <;> rw [h] <;> decide
    have hI : opcodeOf w ∉ Config.numerals.iOpcodes := by rcases hop with h | h <;> rw [h] <;> decide
    rw [or_iff_right (mt And.left h0), List.mem_append, or_iff_right hI]
    rfl

/-- The rejected words are those of no row, and the report is their format with their selector. -/
theorem decodeInstr_eq_error {w : Word} {fmt : Format} (hfmt : formatOf (opcodeOf w) = fmt) {u : Unsupported} :
    decodeInstr w = .error u ↔
      (∀ row ∈ opcodeTable, w &&& row.mask ≠ row.bits) ∧ u = ⟨fmt, selectorOf w fmt⟩ := by
  rw [decodeInstr, decodeWith_eq_error hfmt, ← exists_row_iff_selector hfmt]
  simp

theorem row_eq_of_bits_agree : ∀ row ∈ opcodeTable, ∀ row' ∈ opcodeTable,
    row.bits &&& row'.mask = row'.bits &&& row.mask → row = row' := by
  decide

theorem row_eq_of_mnemonic_eq : ∀ row ∈ opcodeTable, ∀ row' ∈ opcodeTable,
    row.mnemonic = row'.mnemonic → row = row' := by
  decide

/-- A word matches at most one row. -/
theorem row_eq_of_matches {w : Word} {row row' : OpcodeRow} (hrow : row ∈ opcodeTable) (hrow' : row' ∈ opcodeTable)
    (h : w &&& row.mask = row.bits) (h' : w &&& row'.mask = row'.bits) : row = row' := by
  refine row_eq_of_bits_agree row hrow row' hrow' ?_
  rw [← h, ← h', BitVec.and_assoc, BitVec.and_assoc, BitVec.and_comm row.mask]

/-- The word of every instruction matches the row of its mnemonic. -/
theorem tableRow (i : Instr) : Laws.TableRow.Statement i := by
  cases i
  exacts [Laws.TableRow.add .., Laws.TableRow.sub .., Laws.TableRow.and .., Laws.TableRow.or ..,
    Laws.TableRow.slt .., Laws.TableRow.sll .., Laws.TableRow.srl .., Laws.TableRow.halt ..,
    Laws.TableRow.addi .., Laws.TableRow.andi .., Laws.TableRow.ori .., Laws.TableRow.slti ..,
    Laws.TableRow.lui .., Laws.TableRow.beq .., Laws.TableRow.bne .., Laws.TableRow.lw .., Laws.TableRow.sw ..,
    Laws.TableRow.j ..]

/-- Settles O7: a word that decodes is its instruction's word, which matches the row of the mnemonic and no other. -/
theorem decoderAgreesWithTheOpcodeTable : Obligations.DecoderAgreesWithTheOpcodeTable := by
  refine fun w => ⟨fun i hi row hrow => ?_, fun u hu => ((decodeInstr_eq_error rfl).mp hu).1⟩
  obtain ⟨own, hown, hname, hmatch⟩ := tableRow i
  have hword : encode i = w := encodeOfDecodeUnderAllNumerals _ _ _ hi
  rw [hword] at hmatch
  constructor
  · intro h
    rw [row_eq_of_matches hrow hown h hmatch, hname]
  · intro h
    rwa [row_eq_of_mnemonic_eq row hrow own hown (h.trans hname.symm)]

/-! ### The report of an illegal word (30_encoding.md R61; 60_exceptions.md R131) -/

theorem Unsupported.eq_mk_iff {u : Unsupported} {fmt : Format} {code : Code} :
    u = ⟨fmt, code⟩ ↔ u.fmt = fmt ∧ u.code.toNat = code.toNat := by
  cases u
  simp [BitVec.toNat_inj]

/-- Settles O8: one clause for each format, the other two being about words of another opcode. -/
theorem illegalWordsAreReportedByFormatAndCode : Obligations.IllegalWordsAreReportedByFormatAndCode := by
  intro w u
  rw [← opcodeOf_toNat, ← functOf_toNat]
  cases hfmt : formatOf (opcodeOf w) with
  | r =>
    have hop := formatOf_eq_r.mp hfmt
    rw [decodeInstr_eq_error hfmt, Unsupported.eq_mk_iff, selectorOf]
    simp [hop]
  | i =>
    obtain ⟨h0, h2, h3⟩ : (opcodeOf w).toNat ≠ 0 ∧ (opcodeOf w).toNat ≠ 2 ∧ (opcodeOf w).toNat ≠ 3 := by
      simpa [← BitVec.toNat_inj] using formatOf_eq_i.mp hfmt
    rw [decodeInstr_eq_error hfmt, Unsupported.eq_mk_iff, selectorOf]
    simp only [h0, h2, h3, false_implies, ne_eq, not_false_eq_true, and_self, true_implies, or_self, true_and]
  | j =>
    rw [decodeInstr_eq_error hfmt, Unsupported.eq_mk_iff, selectorOf]
    rcases formatOf_eq_j.mp hfmt with hop | hop <;> simp [hop]

/-! ### The ignored fields (30_encoding.md R62) -/

/-- Settles O40: no meaning takes its ignored fields into what it computes. -/
theorem ignoredFieldsMakeNoDifference : Obligations.IgnoredFieldsMakeNoDifference := by
  intro i s
  cases i with
  | add | sub | and | or | slt => rfl -- `shamt`
  | sll | srl | lui => rfl -- `rs`
  | halt => rfl -- all four
  | addi | andi | ori | slti | beq | bne | lw | sw | j => rfl -- none

end Sys2Proof

/-! ## The family 40_decoder_and_cycle.md: the Decoder -/

namespace Sys2Proof

/-! ### The fields of a decode result (40_decoder_and_cycle.md R71) -/

/-- The signed reading of the raw immediate field, from the word's integer (R54). -/
theorem imm16Of_toInt (w : Word) :
    (imm16Of w).toInt = if w.toNat % 2 ^ 16 < 2 ^ 15 then ((w.toNat % 2 ^ 16 : Nat) : Int)
      else ((w.toNat % 2 ^ 16 : Nat) : Int) - 65536 := by
  rw [BitVec.toInt_eq_toNat_cond, imm16Of_toNat]
  split <;> split <;> omega

/-- Settles O1: the opcode's integer selects the format, and each field of that format has its integer. -/
theorem decoderFieldsAreTheBitsOfTheWord : Obligations.DecoderFieldsAreTheBitsOfTheWord := by
  intro w
  rw [← opcodeOf_toNat]
  refine ⟨fun hop => ?_, fun hop => ?_, fun hop => ?_⟩
  · have hop0 : opcodeOf w = 0 := BitVec.eq_of_toNat_eq hop
    exact ⟨_, _, _, _, _, _, decode_of_r (formatOf_eq_r.mpr hop0), hop0, rsOf_toNat w, rtOf_toNat w, rdOf_toNat w,
      shamtOf_toNat w, functOf_toNat w⟩
  · have hfmt : formatOf (opcodeOf w) = .j :=
      formatOf_eq_j.mpr (hop.imp BitVec.eq_of_toNat_eq BitVec.eq_of_toNat_eq)
    exact ⟨_, _, decode_of_j hfmt, rfl, addressOf_toNat w⟩
  · have hfmt : formatOf (opcodeOf w) = .i := by
      rw [formatOf_eq_i]
      simpa [← BitVec.toNat_inj] using hop
    exact ⟨_, _, _, _, decode_of_i hfmt, rfl, rsOf_toNat w, rtOf_toNat w,
      (extendImmediate_toInt _).trans (imm16Of_toInt w)⟩

/-! ### No bit is lost (40_decoder_and_cycle.md R72) -/

/-- Settles O2: the tag is the opcode's own format, and the fields of that format cover the word. -/
theorem decoderLosesNoBit : Obligations.DecoderLosesNoBit := by
  intro w
  cases hfmt : formatOf (opcodeOf w) with
  | r =>
    rw [decode_of_r hfmt]
    exact ⟨by simp [Decoded.wellFormed, hfmt], packR_fields w⟩
  | i =>
    rw [decode_of_i hfmt, Decoded.reencode, rawImmediate_extendImmediate]
    exact ⟨by simp [Decoded.wellFormed, hfmt], packI_fields w⟩
  | j =>
    rw [decode_of_j hfmt]
    exact ⟨by simp [Decoded.wellFormed, hfmt], packJ_fields w⟩

end Sys2Proof

/-! ## The family 40_decoder_and_cycle.md: steps, stops and the ends of runs -/

namespace Sys2Proof.Machine

section
variable {s t : State}

/-! ### When a step happens (40_decoder_and_cycle.md R74, R75, R80) -/

/-- A fetched word that is no instruction is the condition the step raises. -/
theorem step_of_decodeInstr_eq_error {w : Word} {u : Unsupported} (h : s.isLive) (hw : fetchWord s = some w)
    (hd : decodeInstr w = .error u) : step s = .next (raiseFault (unsupportedLatch u) s) := by
  simp only [step_of_live h.1 h.2, hw, hd, raised]

/-- A live machine always has a step. -/
theorem step_isNext_of_isLive (h : s.isLive) : ∃ t, step s = .next t := by
  cases hw : fetchWord s with
  | none => exact ⟨_, step_of_fetchWord_eq_none h hw⟩
  | some w =>
    cases hd : decodeInstr w with
    | error u => exact ⟨_, step_of_decodeInstr_eq_error h hw hd⟩
    | ok i =>
      rw [step_of_decodeInstr_eq_ok h hw hd]
      exact exec_isNext i s

theorem isLive_of_step_eq_next (h : step s = .next t) : s.isLive := by
  obtain ⟨hr, hf, -⟩ := step_cases h
  exact ⟨hr, hf⟩

/-- The faults a step answers are the reasons for a stop, and no instruction answers one. -/
theorem step_eq_fault_iff {reason : Fault} : step s = .fault reason ↔ stopReason s = some reason := by
  cases hs : stopReason s with
  | some reason' => simp [step, hs]
  | none =>
    obtain ⟨t, ht⟩ := step_isNext_of_isLive (stopReason_eq_none.mp hs)
    simp [ht]

/-- A stopped machine's step answers why it stopped. -/
theorem step_of_isStopped (h : s.isStopped) : ∃ reason, step s = .fault reason := by
  rcases h with hhalted | hfaulted
  · exact ⟨_, step_eq_fault_iff.mpr (stopReason_eq_halted.mpr hhalted)⟩
  · exact ⟨_, step_eq_fault_iff.mpr (stopReason_eq_faulted.mpr hfaulted)⟩

theorem step_ne_next_of_isStopped (h : s.isStopped) : step s ≠ .next t := by
  obtain ⟨reason, hstep⟩ := step_of_isStopped h
  simp [hstep]

/-! ### What a completed instruction does to `running` and the counters (R77, R79) -/

/-- Only HALT clears `running`. -/
theorem Completes.eq_halt_of_stops {i : Instr} (h : Completes i s t) (hs : s.running = true)
    (ht : t.running = false) : ∃ rs rt rd shamt, i = .halt rs rt rd shamt := by
  cases h with
  | halt rs rt rd shamt hi => exact ⟨rs, rt, rd, shamt, hi⟩
  | _ => simp [hs] at ht

theorem Completes.counts {i : Instr} (h : Completes i s t) : Counts (counterOf i) s t := by
  have hf := h.functCount
  have ho := h.opcodeCount
  cases hk : counterOf i with
  | funct f => exact ⟨fun g => by simp [hf, hk, eq_comm], fun o => by simp [ho, hk]⟩
  | opcode o => exact ⟨fun g => by simp [hf, hk], fun p => by simp [ho, hk, eq_comm]⟩

theorem ne_none_of_raisesAt {i : Instr} {c : FaultLatch} (h : raisesAt i s = some c) : c ≠ .none := by
  rcases raisesAt_eq_some h with ⟨_, _, _, -, -, rfl⟩ | ⟨_, _, _, -, -, rfl⟩
  · exact nofun
  · exact nofun

/-- A step that latches nothing completed its instruction: every other way out of a step latches a condition. -/
theorem completes_of_step_of_fault_eq_none (h : step s = .next t) (ht : t.fault = .none) :
    ∃ w i, fetchWord s = some w ∧ decodeInstr w = .ok i ∧ Completes i s t := by
  obtain ⟨-, hf, ⟨-, rfl⟩ | ⟨w, u, -, -, rfl⟩ | ⟨w, i, hw, hd, he⟩⟩ := step_cases h
  · exact nomatch ht
  · exact nomatch ht
  · cases hc : raisesAt i s with
    | none => exact ⟨w, i, hw, hd, exec_completes hc he⟩
    | some c =>
      obtain rfl := Host.Outcome.next.inj ((exec_of_raisesAt_some hc).symm.trans he)
      rw [raiseFault_of_none hf] at ht
      exact absurd ht (ne_none_of_raisesAt hc)

end

/-- Settles O10: it is the step's equation for a fetched word that decodes. -/
theorem stepRunsTheDecodedInstruction : Obligations.StepRunsTheDecodedInstruction :=
  fun _ _ _ hlive hw hd => step_of_decodeInstr_eq_ok hlive hw hd

/-- Settles O13: a live machine has a step, and the two faults are the two reasons for a stop. -/
theorem stepHappensExactlyWhenLive : Obligations.StepHappensExactlyWhenLive := fun _ =>
  ⟨⟨fun ⟨_, hstep⟩ => isLive_of_step_eq_next hstep, step_isNext_of_isLive⟩,
    step_eq_fault_iff.trans stopReason_eq_halted, step_eq_fault_iff.trans stopReason_eq_faulted⟩

/-- Settles O41: raising keeps `running`, of the instructions only HALT clears it, and HALT raises nothing. -/
theorem onlyHaltStopsRunning : Obligations.OnlyHaltStopsRunning := by
  intro s hlive
  obtain ⟨t, hstep⟩ := step_isNext_of_isLive hlive
  refine ⟨t, hstep, fun ht => ?_, fun ⟨w, rs, rt, rd, shamt, hw, hd⟩ => ?_⟩
  · rcases step_latches_or_completes hstep with ⟨c, rfl, -⟩ | ⟨w, i, hw, hd, hc, -⟩
    · exact absurd (hlive.1.symm.trans ht) (by decide)
    · obtain ⟨rs, rt, rd, shamt, rfl⟩ := hc.eq_halt_of_stops hlive.1 ht
      exact ⟨w, rs, rt, rd, shamt, hw, hd⟩
  · have hexec := (step_of_decodeInstr_eq_ok hlive hw hd).trans (exec_halt rs rt rd shamt s)
    obtain rfl := Host.Outcome.next.inj (hexec.symm.trans hstep)
    rfl

/-- Settles O42: a step that latches nothing completed its instruction, and raising is precise (O43). -/
theorem everyStepCountsItsInstruction : Obligations.EveryStepCountsItsInstruction := by
  intro s t hstep
  by_cases ht : t.fault = .none
  · obtain ⟨w, i, hw, hd, hc⟩ := completes_of_step_of_fault_eq_none hstep ht
    exact .inl ⟨ht, w, i, hw, hd, hc.counts⟩
  · have hlatched := raisingIsPrecise s t hstep ht
    exact .inr ⟨ht, fun g => congrArg (·.functCount g) hlatched, fun o => congrArg (·.opcodeCount o) hlatched⟩

/-! ### The ends of runs (40_decoder_and_cycle.md R80, R81) -/

/-- A stopped machine runs no step. -/
theorem not_run_succ_of_isStopped {s t : State} {k : Nat} (h : s.isStopped) :
    Host.Core.run Sys2Proof.core (k + 1) s ≠ .next t := by
  intro hrun
  obtain ⟨u, hstep, -⟩ := run_succ_eq_next.mp hrun
  exact step_ne_next_of_isStopped h hstep

/-- Settles O53: the two runs take the same steps, and where one has ended the other can take no more. -/
theorem runsEndAtMostOnce : Obligations.RunsEndAtMostOnce := by
  intro s t t' k k' ⟨hrun, hstop⟩ ⟨hrun', hstop'⟩
  induction k generalizing s k' with
  | zero =>
    obtain rfl := Host.Outcome.next.inj hrun
    cases k' with
    | zero => exact ⟨rfl, Host.Outcome.next.inj hrun'⟩
    | succ k' => exact absurd hrun' (not_run_succ_of_isStopped hstop)
  | succ k ih =>
    cases k' with
    | zero =>
      obtain rfl := Host.Outcome.next.inj hrun'
      exact absurd hrun (not_run_succ_of_isStopped hstop')
    | succ k' =>
      obtain ⟨u, hstep, hrun⟩ := run_succ_eq_next.mp hrun
      obtain ⟨u', hstep', hrun'⟩ := run_succ_eq_next.mp hrun'
      obtain rfl := Host.Outcome.next.inj (hstep.symm.trans hstep')
      obtain ⟨rfl, rfl⟩ := ih u k' hrun hrun'
      exact ⟨rfl, rfl⟩

/-- An edge without reset leaves a stopped machine as it is. -/
theorem clock_none_of_isStopped {s : State} (h : s.isStopped) : clock none s = s := by
  obtain ⟨reason, hstep⟩ := step_of_isStopped h
  rw [clock, hstep, hold]

/-- Settles O54, by induction on the number of edges. -/
theorem stoppedMachineHoldsItsState : Obligations.StoppedMachineHoldsItsState := by
  intro s k h
  induction k with
  | zero => rfl
  | succ k ih => rw [clockRun, clock_none_of_isStopped h, ih]

end Sys2Proof.Machine

/-! ## The family 41_r_type_alu.md -/

namespace Sys2Proof.Machine

/-! ### The words of a row of the opcode table (30_encoding.md R53, R60, R62) -/

/-- A word decodes to the candidate of its format that stands under its selector: the default codes are distinct. -/
theorem decodeInstr_of_mem_candidates {w : Word} {fmt : Format} {i : Instr} (hfmt : formatOf (opcodeOf w) = fmt)
    (hmem : (selectorOf w fmt, i) ∈ candidates Config.numerals w fmt) : decodeInstr w = .ok i := by
  subst hfmt
  rw [decodeInstr, decodeWith_eq_firstOf]
  refine firstOf_of_mem ?_ hmem
  rw [candidates_map_fst]
  exact Numerals.codes_nodup (by decide) _

/-- Every word of an R-format row decodes to the instruction of the row's funct. -/
theorem decodeInstr_of_and_maskR {w : Word} {i : Instr} (funct : Code)
    (h : w &&& 0xFC00003F = (0 : Code) ++ (0 : BitVec 20) ++ funct)
    (hmem : (funct, i) ∈ candidates Config.numerals w .r) : decodeInstr w = .ok i := by
  obtain ⟨hop, rfl⟩ := (and_maskR_eq w 0 funct).mp h
  exact decodeInstr_of_mem_candidates (formatOf_eq_r.mpr hop) hmem

/-! ### The commit that writes a register (41_r_type_alu.md R90; 43_i_type_alu.md R105) -/

@[simp] theorem State.tick_fault (s : State) (k : CounterKey) : (s.tick k).fault = s.fault := by cases k <;> rfl

/-- A tick counts exactly its own entry. -/
theorem State.tick_counts (s : State) (k : CounterKey) : Counts k s (s.tick k) := by
  cases k with
  | funct f => exact ⟨fun g => by simp [eq_comm], fun o => by simp⟩
  | opcode o => exact ⟨fun g => by simp, fun p => by simp [eq_comm]⟩

/-- The state after a commit that writes `v` to register `d` and counts the entry `k`. -/
def State.writeback (s : State) (d : RegIdx) (v : Word) (k : CounterKey) : State :=
  ((s.setReg d v).advancePc).tick k

@[simp] theorem State.writeback_reg_self (s : State) (d : RegIdx) (v : Word) (k : CounterKey) :
    (s.writeback d v k).reg d = v := by
  simp [State.writeback]

/-- Beside the written register, such a commit changes `pc` and its own counter entry only. -/
theorem State.writeback_frame (s : State) (d : RegIdx) (v : Word) (k : CounterKey) :
    RegsKeptBut d s (s.writeback d v k) ∧ (s.writeback d v k).pc = s.pc + 4 ∧ Counts k s (s.writeback d v k) ∧
      MemKept s (s.writeback d v k) ∧ RunStateKept s (s.writeback d v k) := by
  have hregs : RegsKeptBut d s (s.writeback d v k) := fun r hr => by simp [State.writeback, hr]
  have hpc : (s.writeback d v k).pc = s.pc + 4 := by simp [State.writeback]
  have hcounts : Counts k s (s.writeback d v k) := by
    have h := ((s.setReg d v).advancePc).tick_counts k
    cases k <;> exact h
  have hmem : MemKept s (s.writeback d v k) := by simp [MemKept, State.writeback]
  have hrun : RunStateKept s (s.writeback d v k) := by simp [RunStateKept, State.writeback]
  exact ⟨hregs, hpc, hcounts, hmem, hrun⟩

/-! ### The seven instructions (41_r_type_alu.md R91 to R97) -/

/-- A difference of unsigned readings, modulo 2^32 (R92). -/
theorem sub_toNat (a b : Word) : ((a - b).toNat : Int) = ((a.toNat : Int) - (b.toNat : Int)) % 2 ^ 32 := by
  have := a.isLt
  have := b.isLt
  rw [BitVec.toNat_sub]
  omega

/-- Settles O14: the row's funct selects ADD, which commits the word sum. -/
theorem addWritesTheWrappedSum : Obligations.AddWritesTheWrappedSum := by
  refine ⟨fun w hw => decodeInstr_of_and_maskR 0x20 hw (by simp [candidates, Config.numerals]),
    fun rs rt rd shamt s =>
      ⟨s.writeback rd (s.reg rs + s.reg rt) (.funct 0x20), exec_add .., ?_, s.writeback_frame ..⟩⟩
  rw [State.writeback_reg_self, BitVec.toNat_add]

/-- Settles O15: the row's funct selects SUB, which commits the word difference. -/
theorem subWritesTheWrappedDifference : Obligations.SubWritesTheWrappedDifference := by
  refine ⟨fun w hw => decodeInstr_of_and_maskR 0x22 hw (by simp [candidates, Config.numerals]),
    fun rs rt rd shamt s =>
      ⟨s.writeback rd (s.reg rs - s.reg rt) (.funct 0x22), exec_sub .., ?_, s.writeback_frame ..⟩⟩
  rw [State.writeback_reg_self, sub_toNat]

/-- Settles O16: the row's funct selects AND, which commits the word `&&&`. -/
theorem andWritesTheBitwiseAnd : Obligations.AndWritesTheBitwiseAnd := by
  refine ⟨fun w hw => decodeInstr_of_and_maskR 0x24 hw (by simp [candidates, Config.numerals]),
    fun rs rt rd shamt s =>
      ⟨s.writeback rd (s.reg rs &&& s.reg rt) (.funct 0x24), exec_and .., fun k _ => ?_, s.writeback_frame ..⟩⟩
  rw [State.writeback_reg_self, BitVec.getLsbD_and]

/-- Settles O17: the row's funct selects OR, which commits the word `|||`. -/
theorem orWritesTheBitwiseOr : Obligations.OrWritesTheBitwiseOr := by
  refine ⟨fun w hw => decodeInstr_of_and_maskR 0x25 hw (by simp [candidates, Config.numerals]),
    fun rs rt rd shamt s =>
      ⟨s.writeback rd (s.reg rs ||| s.reg rt) (.funct 0x25), exec_or .., fun k _ => ?_, s.writeback_frame ..⟩⟩
  rw [State.writeback_reg_self, BitVec.getLsbD_or]

/-- Settles O18: the row's funct selects SLT, which commits the comparison of the signed readings. -/
theorem sltWritesTheSignedComparison : Obligations.SltWritesTheSignedComparison := by
  refine ⟨fun w hw => decodeInstr_of_and_maskR 0x2A hw (by simp [candidates, Config.numerals]),
    fun rs rt rd shamt s =>
      ⟨s.writeback rd (setOnLess (s.reg rs) (s.reg rt)) (.funct 0x2A), exec_slt .., ?_, s.writeback_frame ..⟩⟩
  rw [State.writeback_reg_self, setOnLess_toNat]

/-- Settles O19: the row's funct selects SLL, which commits `x[rt]` shifted left. -/
theorem sllWritesTheLeftShift : Obligations.SllWritesTheLeftShift := by
  refine ⟨fun w hw => decodeInstr_of_and_maskR 0x00 hw (by simp [candidates, Config.numerals]),
    fun rs rt rd shamt s =>
      ⟨s.writeback rd (shiftLeft (s.reg rt) shamt) (.funct 0x00), exec_sll .., ?_, s.writeback_frame ..⟩⟩
  rw [State.writeback_reg_self, shiftLeft_toNat]

/-- Settles O20: the row's funct selects SRL, which commits `x[rt]` shifted right. -/
theorem srlWritesTheLogicalRightShift : Obligations.SrlWritesTheLogicalRightShift := by
  refine ⟨fun w hw => decodeInstr_of_and_maskR 0x02 hw (by simp [candidates, Config.numerals]),
    fun rs rt rd shamt s =>
      ⟨s.writeback rd (shiftRight (s.reg rt) shamt) (.funct 0x02), exec_srl .., ?_, s.writeback_frame ..⟩⟩
  rw [State.writeback_reg_self, shiftRight_toNat]

end Sys2Proof.Machine

/-! ## The family 42_halt.md -/

namespace Sys2Proof.Machine

/-- The state after HALT's commit: `running` cleared and the entry `k` counted (R100). -/
def State.haltWith (s : State) (k : CounterKey) : State := s.clearRunning.tick k

@[simp] theorem State.haltWith_running (s : State) (k : CounterKey) : (s.haltWith k).running = false := by
  simp [State.haltWith]

/-- Beside `running`, HALT's commit changes its own counter entry only. -/
theorem State.haltWith_frame (s : State) (k : CounterKey) :
    (s.haltWith k).fault = s.fault ∧ (s.haltWith k).pc = s.pc ∧ RegsKept s (s.haltWith k) ∧
      Counts k s (s.haltWith k) ∧ MemKept s (s.haltWith k) := by
  have hfault : (s.haltWith k).fault = s.fault := by simp [State.haltWith]
  have hpc : (s.haltWith k).pc = s.pc := by simp [State.haltWith]
  have hregs : RegsKept s (s.haltWith k) := fun r => by simp [State.haltWith]
  have hcounts : Counts k s (s.haltWith k) := by
    have h := s.clearRunning.tick_counts k
    cases k <;> exact h
  have hmem : MemKept s (s.haltWith k) := by simp [MemKept, State.haltWith]
  exact ⟨hfault, hpc, hregs, hcounts, hmem⟩

/-- Settles O21: the row's funct selects HALT, whose commit clears `running` and counts the entry 0x3F. -/
theorem haltOnlyClearsRunning : Obligations.HaltOnlyClearsRunning :=
  ⟨fun _ hw => decodeInstr_of_and_maskR 0x3F hw (by simp [candidates, Config.numerals]),
    fun rs rt rd shamt s =>
      ⟨s.haltWith (.funct 0x3F), exec_halt rs rt rd shamt s, s.haltWith_running _, s.haltWith_frame _⟩⟩

end Sys2Proof.Machine

/-! ## The family 43_i_type_alu.md -/

namespace Sys2Proof.Machine

/-- Every word of an I-format row decodes to the instruction of the row's opcode. -/
theorem decodeInstr_of_and_maskI {w : Word} {i : Instr} (op : Code) (hfmt : formatOf op = .i)
    (h : w &&& 0xFC000000 = op ++ (0 : BitVec 26)) (hmem : (op, i) ∈ candidates Config.numerals w .i) :
    decodeInstr w = .ok i := by
  obtain rfl := (and_maskI_eq w op).mp h
  exact decodeInstr_of_mem_candidates hfmt hmem

/-! ### The five instructions (43_i_type_alu.md R106 to R110) -/

/-- Settles O22: the row's opcode selects ADDI, which commits the sum with the sign-extended immediate. -/
theorem addiWritesTheWrappedSum : Obligations.AddiWritesTheWrappedSum := by
  refine ⟨fun w hw => decodeInstr_of_and_maskI 0x08 rfl hw (by simp [candidates, Config.numerals]),
    fun rs rt imm16 s =>
      ⟨s.writeback rt (s.reg rs + sext32 imm16) (.opcode 0x08), exec_addi .., ?_, s.writeback_frame ..⟩⟩
  rw [State.writeback_reg_self, add_sext32_toNat]

/-- Settles O23: the row's opcode selects ANDI, whose mask `zext32` has the immediate's 16 bits and no others. -/
theorem andiMasksWithTheUnsignedImmediate : Obligations.AndiMasksWithTheUnsignedImmediate := by
  refine ⟨fun w hw => decodeInstr_of_and_maskI 0x0C rfl hw (by simp [candidates, Config.numerals]),
    fun rs rt imm16 s =>
      ⟨s.writeback rt (s.reg rs &&& zext32 imm16) (.opcode 0x0C), exec_andi .., fun k hk => ?_,
        s.writeback_frame ..⟩⟩
  rw [State.writeback_reg_self, BitVec.getLsbD_and, zext32_getLsbD imm16 k hk, Bool.and_assoc]

/-- Settles O24: the row's opcode selects ORI, whose operand `zext32` has no bit above the immediate's 16. -/
theorem oriSetsTheUnsignedImmediate : Obligations.OriSetsTheUnsignedImmediate := by
  refine ⟨fun w hw => decodeInstr_of_and_maskI 0x0D rfl hw (by simp [candidates, Config.numerals]),
    fun rs rt imm16 s =>
      ⟨s.writeback rt (s.reg rs ||| zext32 imm16) (.opcode 0x0D), exec_ori .., fun k hk => ?_,
        s.writeback_frame ..⟩⟩
  rw [State.writeback_reg_self, BitVec.getLsbD_or, zext32_getLsbD imm16 k hk]

/-- Settles O25: the row's opcode selects SLTI; the sign extension keeps the immediate's signed reading. -/
theorem sltiWritesTheSignedComparison : Obligations.SltiWritesTheSignedComparison := by
  refine ⟨fun w hw => decodeInstr_of_and_maskI 0x0A rfl hw (by simp [candidates, Config.numerals]),
    fun rs rt imm16 s =>
      ⟨s.writeback rt (setOnLess (s.reg rs) (sext32 imm16)) (.opcode 0x0A), exec_slti .., ?_,
        s.writeback_frame ..⟩⟩
  rw [State.writeback_reg_self, setOnLess_toNat, sext32_toInt]

/-- Settles O26: the row's opcode selects LUI, which commits the immediate as the upper half. -/
theorem luiWritesTheUpperHalf : Obligations.LuiWritesTheUpperHalf := by
  refine ⟨fun w hw => decodeInstr_of_and_maskI 0x0F rfl hw (by simp [candidates, Config.numerals]),
    fun rs rt imm16 s =>
      ⟨s.writeback rt (upperImmediate imm16) (.opcode 0x0F), exec_lui .., ?_, s.writeback_frame ..⟩⟩
  rw [State.writeback_reg_self, upperImmediate_toNat]

end Sys2Proof.Machine

/-! ## The family 44_branch.md -/

namespace Sys2Proof.Machine

/-! ### The commit of a control transfer (44_branch.md R112; 46_jump.md R121) -/

/-- The state after a commit that sets `pc` to `target` and counts the entry `k`. -/
def State.transferTo (s : State) (target : Word) (k : CounterKey) : State := (s.setPc target).tick k

@[simp] theorem State.transferTo_pc (s : State) (target : Word) (k : CounterKey) :
    (s.transferTo target k).pc = target := by
  simp [State.transferTo]

/-- Beside `pc`, a control transfer changes its own counter entry only. -/
theorem State.transferTo_frame (s : State) (target : Word) (k : CounterKey) :
    RegsKept s (s.transferTo target k) ∧ Counts k s (s.transferTo target k) ∧
      MemKept s (s.transferTo target k) ∧ RunStateKept s (s.transferTo target k) := by
  have hregs : RegsKept s (s.transferTo target k) := fun r => by simp [State.transferTo]
  have hcounts : Counts k s (s.transferTo target k) := by
    have h := (s.setPc target).tick_counts k
    cases k <;> exact h
  have hmem : MemKept s (s.transferTo target k) := by simp [MemKept, State.transferTo]
  have hrun : RunStateKept s (s.transferTo target k) := by simp [RunStateKept, State.transferTo]
  exact ⟨hregs, hcounts, hmem, hrun⟩

/-! ### The two branches (44_branch.md R113, R114) -/

/-- Settles O27: the row's opcode selects BEQ, which transfers to the branch target on equal patterns. -/
theorem beqBranchesOnEqual : Obligations.BeqBranchesOnEqual := by
  refine ⟨fun w hw => decodeInstr_of_and_maskI 0x04 rfl hw (by simp [candidates, Config.numerals]),
    fun rs rt imm16 s => ?_⟩
  by_cases heq : s.reg rs = s.reg rt
  · refine ⟨s.transferTo (branchTarget s.pc imm16) (.opcode 0x04), exec_beq_of_eq _ _ _ _ heq,
      fun _ => ?_, fun hne => absurd heq hne, s.transferTo_frame ..⟩
    rw [State.transferTo_pc, branchTarget_toNat]
  · exact ⟨s.transferTo (s.pc + 4) (.opcode 0x04), exec_beq_of_ne _ _ _ _ heq,
      fun h => absurd h heq, fun _ => s.transferTo_pc .., s.transferTo_frame ..⟩

/-- Settles O28: the row's opcode selects BNE, which transfers to the branch target on unequal patterns. -/
theorem bneBranchesOnNotEqual : Obligations.BneBranchesOnNotEqual := by
  refine ⟨fun w hw => decodeInstr_of_and_maskI 0x05 rfl hw (by simp [candidates, Config.numerals]),
    fun rs rt imm16 s => ?_⟩
  by_cases heq : s.reg rs = s.reg rt
  · exact ⟨s.transferTo (s.pc + 4) (.opcode 0x05), exec_bne_of_eq _ _ _ _ heq,
      fun hne => absurd heq hne, fun _ => s.transferTo_pc .., s.transferTo_frame ..⟩
  · refine ⟨s.transferTo (branchTarget s.pc imm16) (.opcode 0x05), exec_bne_of_ne _ _ _ _ heq,
      fun _ => ?_, fun h => absurd h heq, s.transferTo_frame ..⟩
    rw [State.transferTo_pc, branchTarget_toNat]

end Sys2Proof.Machine

/-! ## The family 45_load_store.md -/

namespace Sys2Proof.Machine

/-! ### The commit of a store (45_load_store.md R118) -/

/-- The state after a commit that replaces the memory by `m` and counts the entry `k`. -/
def State.storeback (s : State) (m : Memory) (k : CounterKey) : State := ((s.setMem m).advancePc).tick k

@[simp] theorem State.storeback_mem (s : State) (m : Memory) (k : CounterKey) : (s.storeback m k).mem = m := by
  simp [State.storeback]

/-- Beside the memory, a store's commit changes `pc` and its own counter entry only. -/
theorem State.storeback_frame (s : State) (m : Memory) (k : CounterKey) :
    RegsKept s (s.storeback m k) ∧ (s.storeback m k).pc = s.pc + 4 ∧ Counts k s (s.storeback m k) ∧
      RunStateKept s (s.storeback m k) := by
  have hregs : RegsKept s (s.storeback m k) := fun r => by simp [State.storeback]
  have hpc : (s.storeback m k).pc = s.pc + 4 := by simp [State.storeback]
  have hcounts : Counts k s (s.storeback m k) := by
    have h := ((s.setMem m).advancePc).tick_counts k
    cases k <;> exact h
  have hrun : RunStateKept s (s.storeback m k) := by simp [RunStateKept, State.storeback]
  exact ⟨hregs, hpc, hcounts, hrun⟩

/-- A store's commit sets the whole word of its address and keeps every other word. -/
theorem State.storeback_words {s : State} {a v : Word} {m : Memory} (h : s.mem.store a v = some m) (k : CounterKey) :
    (∀ b : Word, wordIndex b = wordIndex a → (s.storeback m k).mem.load b = some v) ∧
      MemKeptBut a s (s.storeback m k) := by
  rw [MemKeptBut, State.storeback_mem]
  exact ⟨fun b hb => by rw [Memory.load_store h, if_pos hb], Memory.store_size h,
    fun b hb => by rw [Memory.load_store h, if_neg hb]⟩

/-! ### The two instructions (45_load_store.md R117, R118) -/

/-- Settles O30: the row's opcode selects LW, which commits the word of its address or raises. -/
theorem lwLoadsTheWord : Obligations.LwLoadsTheWord := by
  refine ⟨fun w hw => decodeInstr_of_and_maskI 0x23 rfl hw (by simp [candidates, Config.numerals]),
    fun rs rt imm16 s => ⟨fun hlt => ?_, fun hge => ?_⟩⟩
  · exact ⟨s.writeback rt (s.mem.word (wordIndex (effectiveAddress s rs imm16))) (.opcode 0x23),
      exec_lw_of_lt _ _ _ _ hlt, State.writeback_reg_self .., s.writeback_frame ..⟩
  · exact ⟨_, exec_lw_of_ge _ _ _ _ hge, onlyLatched_raiseFault _ s⟩

/-- Settles O31: the row's opcode selects SW, which commits the memory with one word replaced or raises. -/
theorem swStoresTheWord : Obligations.SwStoresTheWord := by
  refine ⟨fun w hw => decodeInstr_of_and_maskI 0x2B rfl hw (by simp [candidates, Config.numerals]),
    fun rs rt imm16 s => ⟨fun hlt => ?_, fun hge => ?_⟩⟩
  · obtain ⟨hword, hkept⟩ := State.storeback_words (Memory.store_of_lt (s.reg rt) hlt) (.opcode 0x2B)
    exact ⟨s.storeback _ (.opcode 0x2B), exec_sw_of_lt _ _ _ _ hlt, hword, hkept, s.storeback_frame ..⟩
  · exact ⟨_, exec_sw_of_ge _ _ _ _ hge, onlyLatched_raiseFault _ s⟩

/-! ### A load after a store (45_load_store.md R119) -/

theorem storesAt_sw_of_store {s : State} {rs rt : RegIdx} {imm16 : BitVec 16} {m : Memory}
    (h : s.mem.store (effectiveAddress s rs imm16) (s.reg rt) = some m) :
    storesAt (.sw rs rt imm16) s = some (wordIndex (effectiveAddress s rs imm16)) := by
  obtain ⟨hlt, -⟩ := Memory.store_eq_some.mp h
  rw [storesAt, if_pos ((Memory.inBounds_iff _ _).mpr hlt)]

/-- An instruction changes no word but the one it stores to. -/
theorem exec_load_of_storesAt_ne {i : Instr} {s t : State} {a : Word} (he : exec i s = .next t)
    (h : storesAt i s ≠ some (wordIndex a)) : t.mem.load a = s.mem.load a := by
  cases hc : raisesAt i s with
  | some c =>
    obtain rfl := Host.Outcome.next.inj ((exec_of_raisesAt_some hc).symm.trans he)
    rw [raiseFault_eq, State.setFault_mem]
  | none =>
    cases exec_completes hc he with
    | store rs rt imm16 m hi hm =>
      subst hi
      have hne : wordIndex a ≠ wordIndex (effectiveAddress s rs imm16) := fun e =>
        h (e ▸ storesAt_sw_of_store hm)
      simp [Memory.load_store hm, hne]
    | _ => simp

/-- Instructions none of which stores to a word keep it, by induction on the list. -/
theorem execAll_load_of_storesNoneTo {is : List Instr} {s t : State} {a : Word} (he : execAll is s = .next t)
    (h : StoresNoneTo (wordIndex a) is s) : t.mem.load a = s.mem.load a := by
  induction is generalizing s with
  | nil =>
    obtain rfl := Host.Outcome.next.inj he
    rfl
  | cons i is ih =>
    obtain ⟨u, hu⟩ := exec_isNext i s
    obtain ⟨hne, hrest⟩ := h
    rw [execAll, hu] at he
    rw [hu] at hrest
    exact (ih he hrest).trans (exec_load_of_storesAt_ne hu hne)

/-- Settles O33: the store sets the word (O31), the instructions between keep it, and the load reads it (O30). -/
theorem storeThenLoadGivesTheValue : Obligations.StoreThenLoadGivesTheValue := by
  intro s t u rs rt rs' rt' imm16 imm16' between hsw hlt hbetween hnone hsame
  have hsame : wordIndex (effectiveAddress u rs' imm16') = wordIndex (effectiveAddress s rs imm16) := hsame
  obtain ⟨t', hsw', hstored, -⟩ := (swStoresTheWord.2 rs rt imm16 s).1 hlt
  obtain rfl := Host.Outcome.next.inj (hsw'.symm.trans hsw)
  have hload : u.mem.load (effectiveAddress u rs' imm16') = some (s.reg rt) :=
    (execAll_load_of_storesNoneTo hbetween (hsame ▸ hnone)).trans (hstored _ hsame)
  obtain ⟨hlt', hword⟩ := Memory.load_eq_some.mp hload
  obtain ⟨v, hlw, hreg, -⟩ := (lwLoadsTheWord.2 rs' rt' imm16' u).1 hlt'
  exact ⟨v, hlw, hreg.trans hword⟩

end Sys2Proof.Machine

/-! ## The family 46_jump.md -/

namespace Sys2Proof.Machine

/-- Every word of the J-format row decodes to J with the word's address field. -/
theorem decodeInstr_of_and_maskJ {w : Word} (h : w &&& 0xFC000000 = (0x02 : Code) ++ (0 : BitVec 26)) :
    decodeInstr w = .ok (.j (addressOf w)) := by
  have hop : opcodeOf w = 0x02 := (and_maskI_eq w 0x02).mp h
  refine decodeInstr_of_mem_candidates (formatOf_eq_j.mpr (.inl hop)) ?_
  simp [selectorOf, candidates, Config.numerals, hop]

/-- Settles O29: the row's opcode selects J, which transfers to the jump target of its own `pc`. -/
theorem jumpKeepsTheRegion : Obligations.JumpKeepsTheRegion := by
  refine ⟨fun w hw => decodeInstr_of_and_maskJ hw, fun address s =>
    ⟨s.transferTo (jumpTarget s.pc address) (.opcode 0x02), exec_j .., ?_, s.transferTo_frame ..⟩⟩
  rw [State.transferTo_pc, jumpTarget_toNat]

end Sys2Proof.Machine

/-! ## The family 60_exceptions.md, and the sum of the counters -/

namespace Sys2Proof.Machine

/-! ### The sum of the counters (60_exceptions.md R142) -/

@[simp] theorem State.setReg_executed (s : State) (r : RegIdx) (v : Word) : (s.setReg r v).executed = s.executed := rfl
@[simp] theorem State.setPc_executed (s : State) (v : Word) : (s.setPc v).executed = s.executed := rfl
@[simp] theorem State.advancePc_executed (s : State) : s.advancePc.executed = s.executed := rfl
@[simp] theorem State.clearRunning_executed (s : State) : s.clearRunning.executed = s.executed := rfl
@[simp] theorem State.setFault_executed (s : State) (c : FaultLatch) : (s.setFault c).executed = s.executed := rfl
@[simp] theorem State.setMem_executed (s : State) (m : Memory) : (s.setMem m).executed = s.executed := rfl

/-- One entry of a table incremented adds 1 to the sum of the table. -/
theorem sum_toList_set_succ {n : Nat} (table : Vector Nat n) (i : Nat) (hi : i < n) :
    (table.set i (table[i] + 1) hi).toList.sum = table.toList.sum + 1 := by
  have hlen : i < table.toList.length := by simpa using hi
  have hsplit := List.sum_take_add_sum_drop table.toList i
  rw [List.drop_eq_getElem_cons hlen, List.sum_cons, Vector.getElem_toList] at hsplit
  rw [Vector.toList_set, List.sum_set, if_pos hlen]
  omega

/-- A tick adds 1 to the sum of the counters, whichever table its key names. -/
@[simp] theorem State.tick_executed (s : State) (k : CounterKey) : (s.tick k).executed = s.executed + 1 := by
  cases k with
  | funct f =>
    have hsum := sum_toList_set_succ s.countFunct f.toNat f.isLt
    simp only [State.tick, State.executed, State.tickFunct, State.functCount, hsum]
    omega
  | opcode o =>
    have hsum := sum_toList_set_succ s.countOpcode o.toNat o.isLt
    simp only [State.tick, State.executed, State.tickOpcode, State.opcodeCount, hsum]
    omega

theorem Completes.executed {i : Instr} {s t : State} (h : Completes i s t) : t.executed = s.executed + 1 := by
  cases h <;> simp

theorem faultStep_of_none {s : State} (h : s.fault = .none) : faultStep s = 0 := if_pos h

theorem faultStep_of_latched {s : State} (h : s.fault ≠ .none) : faultStep s = 1 := if_neg h

/-- Settles O58: a step that latches nothing completed its instruction, which counts once; raising is precise (O43),
so a step that latches counts nothing and is the faulting step. -/
theorem everyStepAddsOneToTheSumOfTheCounters : Obligations.EveryStepAddsOneToTheSumOfTheCounters := by
  intro s t hstep
  rw [faultStep_of_none (isLive_of_step_eq_next hstep).2]
  by_cases ht : t.fault = .none
  · obtain ⟨w, i, -, -, hc⟩ := completes_of_step_of_fault_eq_none hstep ht
    rw [faultStep_of_none ht, hc.executed]
  · have hkept : t.executed = s.executed := congrArg (·.executed) (raisingIsPrecise s t hstep ht)
    rw [faultStep_of_latched ht, hkept]

/-- A run of `k` steps, from any state, adds `k` to the sum of the counters and the faulting step. -/
theorem run_executed {k : Nat} {s t : State} (hrun : Host.Core.run Sys2Proof.core k s = .next t) :
    t.executed + faultStep t = s.executed + faultStep s + k := by
  induction k generalizing s with
  | zero =>
    obtain rfl := Host.Outcome.next.inj hrun
    rfl
  | succ k ih =>
    obtain ⟨u, hstep, hrun⟩ := run_succ_eq_next.mp hrun
    have hone := everyStepAddsOneToTheSumOfTheCounters s u hstep
    have hrest := ih hrun
    omega

@[simp] theorem State.initial_executed (mem : Memory) : (State.initial mem).executed = 0 := by
  simp [State.initial, State.executed]

/-- Settles O52: a run of `k` steps adds `k`, and at the boot state every counter is 0 and no fault is latched. -/
theorem stepsOfARunAreTheSumOfTheCounters : Obligations.StepsOfARunAreTheSumOfTheCounters := by
  intro image k t hrun
  have hsum := run_executed hrun
  have hcounts : (State.boot image).executed = 0 := State.initial_executed _
  have hfault : faultStep (State.boot image) = 0 := faultStep_of_none rfl
  omega

/-! ### The conditions in order (60_exceptions.md R134, R135) -/

/-- The latch after an instruction that began with none: its own condition, if it has one. -/
theorem exec_fault {i : Instr} {s t : State} (hf : s.fault = .none) (he : exec i s = .next t) :
    t.fault = (raisesAt i s).getD .none := by
  cases hc : raisesAt i s with
  | none => exact (exec_fault_of_raisesAt_none hc he).trans hf
  | some c =>
    obtain rfl := Host.Outcome.next.inj ((exec_of_raisesAt_some hc).symm.trans he)
    rw [raiseFault_of_none hf]
    rfl

/-- Settles O44: the three ways out of a step are the three rows of the match. -/
theorem conditionsAreRaisedInOrder : Obligations.ConditionsAreRaisedInOrder := by
  intro s t hstep
  obtain ⟨-, hf, ⟨hw, rfl⟩ | ⟨w, u, hw, hd, rfl⟩ | ⟨w, i, hw, hd, he⟩⟩ := step_cases hstep
  · rw [hw]
    rfl
  · simp only [hw, hd]
    rfl
  · simp only [hw, hd]
    exact exec_fault hf he

/-- Settles O12: the step raises the rejected word's condition, and raising writes the latch alone. -/
theorem unsupportedWordOnlyLatches : Obligations.UnsupportedWordOnlyLatches :=
  fun s _ _ hlive hw hd => ⟨_, step_of_decodeInstr_eq_error hlive hw hd, onlyLatched_raiseFault _ s⟩

/-! ### The fault port (60_exceptions.md R133) -/

theorem faultInfo_unsupportedOperation_toNat (fmt : Format) (code : Code) :
    (faultInfo (.unsupportedOperation fmt code)).toNat = (formatBits fmt).toNat * 64 + code.toNat := by
  have hfmt := (formatBits fmt).isLt
  have hcode := code.isLt
  rw [faultInfo, BitVec.toNat_setWidth, append_toNat]
  omega

theorem formatBits_injective : Function.Injective formatBits := by
  intro fmt fmt'
  cases fmt <;> cases fmt' <;> decide

/-- The format and the code stand in bits of their own. -/
theorem faultInfo_unsupportedOperation_inj {fmt fmt' : Format} {code code' : Code}
    (h : faultInfo (.unsupportedOperation fmt code) = faultInfo (.unsupportedOperation fmt' code')) :
    fmt = fmt' ∧ code = code' := by
  have h := congrArg BitVec.toNat h
  rw [faultInfo_unsupportedOperation_toNat, faultInfo_unsupportedOperation_toNat] at h
  have hcode := code.isLt
  have hcode' := code'.isLt
  have hbits : (formatBits fmt).toNat = (formatBits fmt').toNat := by omega
  exact ⟨formatBits_injective (BitVec.eq_of_toNat_eq hbits), BitVec.eq_of_toNat_eq (by omega)⟩

/-- Equal causes are of one row of the table, and a row's info holds all its latch does. -/
theorem eq_of_faultCause_eq_of_faultInfo_eq {f g : FaultLatch} (hcause : faultCause f = faultCause g)
    (hinfo : faultInfo f = faultInfo g) : f = g :=
  match f, g, hcause with
  | .none, .none, _ => rfl
  | .unsupportedOperation _ _, .unsupportedOperation _ _, _ => by
    obtain ⟨rfl, rfl⟩ := faultInfo_unsupportedOperation_inj hinfo
    rfl
  | .outOfBoundsAccess .fetch _, .outOfBoundsAccess .fetch _, _ => congrArg _ hinfo
  | .outOfBoundsAccess .load _, .outOfBoundsAccess .load _, _ => congrArg _ hinfo
  | .outOfBoundsAccess .store _, .outOfBoundsAccess .store _, _ => congrArg _ hinfo

theorem faultValid_eq_false {f : FaultLatch} : faultValid f = false ↔ f = .none := by
  cases f <;> simp [faultValid]

theorem faultCause_eq_zero {f : FaultLatch} : faultCause f = 0 ↔ f = .none := by
  cases f with
  | none => exact iff_of_true rfl rfl
  | unsupportedOperation => exact iff_of_false nofun nofun
  | outOfBoundsAccess kind => cases kind <;> exact iff_of_false nofun nofun

/-- Settles O55, row by row; cause and info together lose nothing of the latch. -/
theorem faultPortDeterminesTheLatch : Obligations.FaultPortDeterminesTheLatch := by
  refine ⟨⟨rfl, rfl, rfl⟩, fun fmt code => ⟨rfl, rfl, ?_⟩, fun kind addr => ⟨rfl, ?_, rfl⟩,
    fun f => ⟨faultValid_eq_false, faultCause_eq_zero⟩, fun f g => eq_of_faultCause_eq_of_faultInfo_eq⟩
  · rw [faultInfo_unsupportedOperation_toNat]
    cases fmt <;> rfl
  · cases kind <;> rfl

/-! ### The read-out of the memory (60_exceptions.md R147) -/

/-- Settles O56: the cells of a canonical memory are its words that are not 0, and none lies outside the array. -/
theorem memoryReportIsTheNonzeroWords : Obligations.MemoryReportIsTheNonzeroWords := by
  intro s hwf a v
  have ⟨hsorted, hlisted⟩ := hwf
  have hcell : ∀ i, (i, v) ∈ s.mem.cells ↔ v ≠ 0 ∧ s.mem.word i = v := fun i =>
    mem_cells_iff hsorted (fun c hc => (hlisted c hc).1) i v
  have hlt : ∀ i, v ≠ 0 → s.mem.word i = v → i < s.mem.size := fun i hv hword =>
    Nat.lt_of_not_le fun hge => hv (hword.symm.trans (Memory.word_of_ge hwf hge))
  constructor
  · intro hreport
    obtain ⟨⟨i, w⟩, hmem, hav⟩ := List.mem_map.mp hreport
    obtain ⟨rfl, rfl⟩ := Prod.mk.inj hav
    obtain ⟨hv, hword⟩ := (hcell i).mp hmem
    exact ⟨hv, i, hlt i hv hword, rfl, hword⟩
  · rintro ⟨hv, i, -, rfl, hword⟩
    exact List.mem_map_of_mem (f := fun c : Nat × Word => (4 * c.1, c.2)) ((hcell i).mpr ⟨hv, hword⟩)

/-! ### The sample words (95_test_vectors.md sections 2.1 to 2.8) -/

/-- Settles O9: the decoder, run on each of the eleven words. -/
theorem sampleWordsDecode : Obligations.SampleWordsDecode := by
  unfold Obligations.SampleWordsDecode
  decide

end Sys2Proof.Machine
